-- ==== Sys2Proof/Word.lean ====
section
/-! DEFINITION. The word types of SC-CORE: bytes, the 9-bit program counter, register indices. -/

namespace Sys2Proof

/-- Registers, memory cells, immediates and ALU operands: unsigned 8-bit values (00_scope.md R7 `WORD`). -/
abbrev Byte := BitVec 8

/-- The program counter and the two 9-bit fields of the fault record: values 0 to 256 (10_state.md R28, R35). -/
abbrev PcWord := BitVec 9

/-- A register index, 0 to 7 (10_state.md R20). -/
abbrev RegIdx := Fin 8

/-- Register 7 is the stack pointer (10_state.md R21; `SP_INDEX`). -/
abbrev spIdx : RegIdx := 7

end Sys2Proof
end

