-- ==== Sys2Proof/Config.lean ====
section
/-! DEFINITION. What is fixed for the machine and not state: the types of the parameters of 00_scope.md R7
(OPCODE_MAP, CMP_POLICY, RESET_FILL) and the free values. The values the parameters take stand where a repair can
reach them: the default opcode map in Decode.lean, the other two in Machine/Params.lean. -/

namespace Sys2Proof

/-- The thirteen mnemonics, in the order of the opcode map (30_encoding.md R77). -/
inductive Mnemonic where
  | HLT | LDI | PRN | MUL | CMP | PUSH | POP | CALL | RET | JMP | JEQ | JNE | ADD
deriving DecidableEq, Repr

/-- The thirteen mnemonics as a list. -/
def Mnemonic.all : List Mnemonic :=
  [.HLT, .LDI, .PRN, .MUL, .CMP, .PUSH, .POP, .CALL, .RET, .JMP, .JEQ, .JNE, .ADD]

/-- The four instruction formats (30_encoding.md R72). -/
inductive Format where
  | N | R | RR | RI
deriving DecidableEq, Repr

/-- Parameter `OPCODE_MAP`: the byte values of the ten opcodes the source does not fix (00_scope.md R8). -/
structure OpcodeMap where
  add  : Byte
  mul  : Byte
  cmp  : Byte
  push : Byte
  pop  : Byte
  call : Byte
  ret  : Byte
  jmp  : Byte
  jeq  : Byte
  jne  : Byte
deriving DecidableEq, Repr

/-- Parameter `CMP_POLICY` (92_eei_decisions.md D4): `retain` is the spec's; `clear` is the alternative it names. -/
inductive CmpPolicy where
  | retain | clear
deriving DecidableEq, Repr

/-- Parameter `RESET_FILL` (92_eei_decisions.md D11, D12): `undefined` is the spec's; `zero` is the alternative it
names. -/
inductive ResetFill where
  | undefined | zero
deriving DecidableEq, Repr

/-- What one line of program text stands for (70_reset_and_hazards.md R213). -/
inductive LineMeaning where
  | ignored
  | byte (b : Byte)
  | malformed
deriving DecidableEq, Repr, Inhabited

/-- FREE VALUE (log 8): what a line of program text stands for where R213 and N13 leave it open (whitespace around
the literal, or a literal of other than 8 digits). -/
opaque Config.unsettledLine : List Char → LineMeaning

/-- FREE VALUE (log 6): `fault_info` of a `LOAD_ERROR` whose image length does not fit the field's 9 bits. -/
opaque Config.wideLoadInfo : Nat → PcWord

end Sys2Proof
end

