-- ==== Sys2Proof/Syntax.lean ====
section
/-! DEFINITION. The instructions: one constructor per row of the opcode table, in its order. A register operand is
the whole operand byte, as the encoding carries it (30_encoding.md R73); WellFormed.lean says which bytes name a
register. -/

namespace Sys2Proof

/-- The closed instruction set (00_scope.md R2; 30_encoding.md R77). Operands stand in the order of their bytes. -/
inductive Instr where
  /-- HLT: stop the run (44_control.md R170). -/
  | hlt
  /-- LDI r, imm: load an immediate byte into a register (42_data_io.md R140). -/
  | ldi (r imm : Byte)
  /-- PRN r: emit a register on the output channel (42_data_io.md R142). -/
  | prn (r : Byte)
  /-- MUL a, b: multiply register a by register b (41_alu.md R122). -/
  | mul (a b : Byte)
  /-- CMP a, b: compare register a with register b (41_alu.md R124). -/
  | cmp (a b : Byte)
  /-- PUSH r: push a register (43_stack.md R150). -/
  | push (r : Byte)
  /-- POP r: pop into a register (43_stack.md R152). -/
  | pop (r : Byte)
  /-- CALL r: push the return address, jump to the address in r (44_control.md R160). -/
  | call (r : Byte)
  /-- RET: pop the return address into pc (44_control.md R162). -/
  | ret
  /-- JMP r: jump to the address in r (44_control.md R164). -/
  | jmp (r : Byte)
  /-- JEQ r: jump if E = 1 (44_control.md R166). -/
  | jeq (r : Byte)
  /-- JNE r: jump if E = 0 (44_control.md R168). -/
  | jne (r : Byte)
  /-- ADD a, b: add register b to register a (41_alu.md R120). -/
  | add (a b : Byte)
deriving DecidableEq, Repr

end Sys2Proof
end

