-- ==== Sys2Proof/WellFormed.lean ====
section
/-! DEFINITION. Which instructions are well formed: every register operand byte names a register, R0 to R7
(30_encoding.md R73). Every immediate byte is legal (R74). -/

namespace Sys2Proof

/-- The operand byte names a register: 0 to 7 (30_encoding.md R73). -/
abbrev namesRegister (o : Byte) : Prop := o.toNat < 8

/-- The register operands of an instruction, in operand order (30_encoding.md R72). -/
def Instr.registerOperands : Instr → List Byte
  | .hlt => []
  | .ldi r _ => [r]
  | .prn r => [r]
  | .mul a b => [a, b]
  | .cmp a b => [a, b]
  | .push r => [r]
  | .pop r => [r]
  | .call r => [r]
  | .ret => []
  | .jmp r => [r]
  | .jeq r => [r]
  | .jne r => [r]
  | .add a b => [a, b]

/-- Every register operand names a register (40_execution_loop.md R105). -/
abbrev Instr.WellFormed (i : Instr) : Prop := ∀ o ∈ i.registerOperands, namesRegister o

end Sys2Proof
end

