-- ==== Sys2Proof/Decode.lean ====
section
/-! DEFINITION. Decoding bytes to instructions and encoding them back (30_encoding.md R70 to R81). Both take the
opcode map as an argument (00_scope.md R8); `defaultOpcodeMap` holds the spec's default values. -/

namespace Sys2Proof

/-- The format of each instruction (30_encoding.md R72, R77). -/
def Mnemonic.format : Mnemonic → Format
  | .HLT => .N
  | .LDI => .RI
  | .PRN => .R
  | .MUL => .RR
  | .CMP => .RR
  | .PUSH => .R
  | .POP => .R
  | .CALL => .R
  | .RET => .N
  | .JMP => .R
  | .JEQ => .R
  | .JNE => .R
  | .ADD => .RR

/-- The operand bytes of a format (30_encoding.md R72). -/
def Format.operandCount : Format → Nat
  | .N => 0
  | .R => 1
  | .RR => 2
  | .RI => 2

/-- `len = 1 + n`, known from the opcode byte alone (30_encoding.md R71). -/
def Mnemonic.length (k : Mnemonic) : Nat := 1 + k.format.operandCount

/-- The opcode byte of each mnemonic: HLT, LDI and PRN fixed by the source (30_encoding.md R75), the others by the
map (R76). -/
def OpcodeMap.code (m : OpcodeMap) : Mnemonic → Byte
  | .HLT => 0x01
  | .LDI => 0x82
  | .PRN => 0x47
  | .MUL => m.mul
  | .CMP => m.cmp
  | .PUSH => m.push
  | .POP => m.pop
  | .CALL => m.call
  | .RET => m.ret
  | .JMP => m.jmp
  | .JEQ => m.jeq
  | .JNE => m.jne
  | .ADD => m.add

/-- A legal map: the thirteen opcode bytes are pairwise distinct (00_scope.md R8). -/
abbrev OpcodeMap.Legal (m : OpcodeMap) : Prop := (Mnemonic.all.map m.code).Nodup

/-- The default `OPCODE_MAP` (30_encoding.md R76). PRESUMED: from general knowledge, not in the source (log 2). -/
def defaultOpcodeMap : OpcodeMap where
  add  := 0xA0
  mul  := 0xA2
  cmp  := 0xA7
  push := 0x45
  pop  := 0x46
  call := 0x50
  ret  := 0x11
  jmp  := 0x54
  jeq  := 0x55
  jne  := 0x56

/-- Look an opcode byte up in the map (40_execution_loop.md R102). The first match is the only one under a legal
map. -/
def OpcodeMap.mnemonic? (m : OpcodeMap) (op : Byte) : Option Mnemonic :=
  Mnemonic.all.find? fun k => m.code k == op

/-- Operand binding (40_execution_loop.md R106): `o1` is the first operand byte, `o2` the second; a format that has
no such operand ignores it. -/
def Mnemonic.bindOperands (o1 o2 : Byte) : Mnemonic → Instr
  | .HLT => .hlt
  | .LDI => .ldi o1 o2
  | .PRN => .prn o1
  | .MUL => .mul o1 o2
  | .CMP => .cmp o1 o2
  | .PUSH => .push o1
  | .POP => .pop o1
  | .CALL => .call o1
  | .RET => .ret
  | .JMP => .jmp o1
  | .JEQ => .jeq o1
  | .JNE => .jne o1
  | .ADD => .add o1 o2

/-- The first register operand, in operand order, that names no register (40_execution_loop.md R105). -/
def Instr.badRegister? (i : Instr) : Option Byte :=
  i.registerOperands.find? fun o => decide (¬ namesRegister o)

/-- Why bytes are no instruction. -/
inductive DecodeError where
  /-- The bytes end before the instruction does; a fetch raises `MEM_RANGE` or `UNINIT_MEM` there (R104). -/
  | truncated
  /-- The opcode byte is no value of the map (R79). -/
  | illegalOpcode (op : Byte)
  /-- A register operand of 8 to 255 (R73). -/
  | regIndex (o : Byte)
deriving DecidableEq, Repr

/-- The instruction at the head of a byte sequence. The order of the checks is that of a step: opcode, operand
bytes, operand check (60_exceptions.md R185). Bytes after the instruction are not looked at. -/
def decode (m : OpcodeMap) : List Byte → Except DecodeError Instr
  | [] => .error .truncated
  | op :: rest =>
    match m.mnemonic? op with
    | none => .error (.illegalOpcode op)
    | some k =>
      if rest.length < k.format.operandCount then .error .truncated
      else
        let i := k.bindOperands (rest.getD 0 0) (rest.getD 1 0)
        match i.badRegister? with
        | some o => .error (.regIndex o)
        | none => .ok i

/-- The mnemonic of an instruction. -/
def Instr.mnemonic : Instr → Mnemonic
  | .hlt => .HLT
  | .ldi _ _ => .LDI
  | .prn _ => .PRN
  | .mul _ _ => .MUL
  | .cmp _ _ => .CMP
  | .push _ => .PUSH
  | .pop _ => .POP
  | .call _ => .CALL
  | .ret => .RET
  | .jmp _ => .JMP
  | .jeq _ => .JEQ
  | .jne _ => .JNE
  | .add _ _ => .ADD

/-- The length of an instruction in bytes (30_encoding.md R71). -/
def Instr.length (i : Instr) : Nat := i.mnemonic.length

/-- The bytes of an instruction at ascending addresses: the opcode, then its operand bytes (30_encoding.md R72). -/
def encode (m : OpcodeMap) : Instr → List Byte
  | .hlt => [0x01]
  | .ldi r imm => [0x82, r, imm]
  | .prn r => [0x47, r]
  | .mul a b => [m.mul, a, b]
  | .cmp a b => [m.cmp, a, b]
  | .push r => [m.push, r]
  | .pop r => [m.pop, r]
  | .call r => [m.call, r]
  | .ret => [m.ret]
  | .jmp r => [m.jmp, r]
  | .jeq r => [m.jeq, r]
  | .jne r => [m.jne, r]
  | .add a b => [m.add, a, b]

/-- The bytes of a word numbered as the opcode table numbers it: bit 0 is the least significant bit of the first
byte. Bits above `nbits` are 0, up to the longest instruction, 3 bytes. -/
def tableBytes (nbits w : Nat) : List Byte :=
  let v := w % 2 ^ nbits
  [BitVec.ofNat 8 v, BitVec.ofNat 8 (v / 256), BitVec.ofNat 8 (v / 65536)]

/-- The instruction the decoder reads from a word of the opcode table, under the default map. -/
def decodeTableWord (nbits w : Nat) : Option Instr :=
  match decode defaultOpcodeMap (tableBytes nbits w) with
  | .ok i => some i
  | .error _ => none

end Sys2Proof
end

