-- ==== Sys2Proof/Machine/Params.lean ====
section
/-! DEFINITION. The values two parameters of 00_scope.md R7 take. They stand in this file, and not in Config.lean,
so that a repair can change them. -/

namespace Sys2Proof.Machine

/-- `CMP_POLICY` = retain (41_alu.md R126; 92_eei_decisions.md D4). -/
def cmpPolicy : CmpPolicy := .retain

/-- `RESET_FILL` = undefined (00_scope.md R7; 92_eei_decisions.md D11, D12). -/
def resetFill : ResetFill := .undefined

end Sys2Proof.Machine
end

