-- ==== Sys2Proof/Machine/State.lean ====
section
/-! DEFINITION. The state of SC-CORE as plain data (10_state.md, 20_memory.md), the causes a step can raise, and the
state after reset. -/

namespace Sys2Proof.Machine

/-- A register: an 8-bit value and its defined tag (10_state.md R20, R24). A register whose tag is clear still holds
a value; no step lets a program see it (R40; log 1). -/
structure Reg where
  value   : Byte
  defined : Bool
deriving DecidableEq, Repr

/-- The three condition flags E, G and L (10_state.md R32). -/
structure Flags where
  e : Bool
  g : Bool
  l : Bool
deriving DecidableEq, Repr

/-- The run status (10_state.md R34). -/
inductive RunStatus where
  | idle | running | halted | faulted
deriving DecidableEq, Repr

/-- The fault record (10_state.md R35): a cause code of 60_exceptions.md R182, the pc of the faulting instruction and
the cause-specific info. -/
structure FaultRecord where
  cause : BitVec 4
  pc    : PcWord
  info  : PcWord
deriving DecidableEq, Repr

/-- The record when no fault has occurred (10_state.md R35). -/
def FaultRecord.none : FaultRecord := { cause := 0, pc := 0, info := 0 }

/-- Memory (20_memory.md R50, R51): the defined cells as (address, byte) pairs. A listed cell is defined; an unlisted
address reads as no value, and reading it raises `UNINIT_MEM`. -/
abbrev Memory := List Host.Cell

/-- The canonical form of a memory: addresses strictly rising and within 0 to 255. No entry equals what an unlisted
address reads as, because that is no value. -/
abbrev Memory.wf (m : Memory) : Prop := m.Pairwise (fun x y => x.1 < y.1) ∧ ∀ c ∈ m, c.1 < 256

/-- The whole state of the core and its attached memory (10_state.md R37; 00_scope.md R5). -/
structure State where
  /-- R0 to R7 with their defined tags; R7 is SP. -/
  regs   : Vector Reg 8
  /-- The program counter, 0 to 256 (R28). -/
  pc     : PcWord
  flags  : Flags
  status : RunStatus
  fault  : FaultRecord
  /-- The output channel, oldest value first (R39). -/
  output : List Byte
  mem    : Memory
deriving DecidableEq, Repr

/-- The fault causes of 60_exceptions.md R182 with the data their `fault_info` is made of. Raising one makes the step
ENTER the fault (R184), which is a next state: no meaning and no step answers `Host.Outcome.fault`. That is exact to
the spec, whose every error ends the run in status Faulted, so neither safe nor unsafe assumptions hang on it. -/
inductive Fault where
  /-- 1, raised by the decode of a step: the opcode byte is not in the map (R79, R102). Safe: the spec asks it. -/
  | illegalOpcode (op : Byte)
  /-- 2, raised by no step: the closed decode passes the ALU only ADD, MUL and CMP (41_alu.md R129). Safe. -/
  | aluUnsupported
  /-- 3, raised by a fetch at or above address 256 (20_memory.md R52). Safe: the spec asks it. -/
  | memRange (addr : Nat)
  /-- 4, raised by the operand check: a register operand of 8 to 255 (40_execution_loop.md R105). Safe. -/
  | regIndex (o : Byte)
  /-- 5, raised by PUSH and CALL with SP = 0, POP and RET with R7 = 255 at the increment (10_state.md R27). Safe. -/
  | stackRange (sp : Byte)
  /-- 6, raised by CALL when its return address exceeds 255 (44_control.md R160). Safe. -/
  | retAddrRange (ra : Nat)
  /-- 7, raised by a read of an undefined register (10_state.md R24). Safe: the spec asks it. -/
  | uninitReg (r : RegIdx)
  /-- 8, raised by a fetch, POP or RET that reads an undefined cell (20_memory.md R51). Safe: the spec asks it. -/
  | uninitMem (addr : Nat)
  /-- 9, raised by the load interface, never by a step: a refused image's length, or 0 (R183). Safe. -/
  | loadError (len : Nat)
deriving DecidableEq, Repr

/-- Why the model gives an instruction no meaning. -/
inductive Refusal where
  /-- Raised by `exec` for an instruction that has no meaning in the model; no arm answers it. Safe. -/
  | notModelled (mnemonic : String)
deriving DecidableEq, Repr

/-- Register contents at reset under a fill: undefined, or zero and defined (10_state.md R41; D11). The value under
the clear tag is DESIGN CHOICE 0 (log 1). -/
def ResetFill.reg : ResetFill → Reg
  | .undefined => { value := 0, defined := false }
  | .zero => { value := 0, defined := true }

/-- Memory contents at reset under a fill (20_memory.md R51; D12). -/
def ResetFill.mem : ResetFill → Memory
  | .undefined => []
  | .zero => (List.range 256).map fun a => (a, 0)

/-- The state after reset under a fill (10_state.md R41; 70_reset_and_hazards.md R210). -/
def State.resetWith (f : ResetFill) : State where
  regs   := (Vector.replicate 8 (ResetFill.reg f)).set spIdx { value := 0xF4, defined := true }
  pc     := 0
  flags  := { e := false, g := false, l := false }
  status := .idle
  fault  := FaultRecord.none
  output := []
  mem    := ResetFill.mem f

/-- The state right after reset, with `RESET_FILL` = undefined (10_state.md R41). -/
def State.reset : State := State.resetWith resetFill

end Sys2Proof.Machine
end

