-- ==== Sys2Proof/Machine/Ops.lean ====
section
/-! DEFINITION. The named operations every meaning is written with (00_scope.md R10, R11): registers, memory, the
output channel, the program counter, raising a fault and committing the working copy. -/

namespace Sys2Proof.Machine

/-! ## Registers (10_state.md R20 to R24) -/

/-- Register i with its tag. -/
def State.reg (s : State) (i : RegIdx) : Reg := s.regs[i]

/-- `x[i]` (00_scope.md R10): the value of a register, or `UNINIT_REG` if its tag is clear. -/
def State.readReg (s : State) (i : RegIdx) : Except Fault Byte :=
  if (s.reg i).defined then .ok (s.reg i).value else .error (.uninitReg i)

/-- `x[i] <- v` (00_scope.md R10): the register becomes defined. No register is hardwired (10_state.md R22). -/
def State.writeReg (s : State) (i : RegIdx) (v : Byte) : State :=
  { s with regs := s.regs.set i { value := v, defined := true } }

/-! ## Memory (20_memory.md R50 to R53) -/

/-- The byte of a cell, or none if the cell is undefined. -/
def Memory.read? : Memory → Nat → Option Byte
  | [], _ => none
  | (k, v) :: m, a => if k = a then some v else Memory.read? m a

/-- Write a cell, keeping the canonical form. -/
def Memory.write : Memory → Nat → Byte → Memory
  | [], a, v => [(a, v)]
  | (k, w) :: m, a, v =>
    if a < k then (a, v) :: (k, w) :: m
    else if a = k then (a, v) :: m
    else (k, w) :: Memory.write m a v

/-- `MemRead(a, 1)` (20_memory.md R52). -/
def State.memRead (s : State) (a : Nat) : Except Fault Byte :=
  if 255 < a then .error (.memRange a)
  else
    match Memory.read? s.mem a with
    | none => .error (.uninitMem a)
    | some v => .ok v

/-- The state with one cell written. -/
def State.store (s : State) (a : Nat) (v : Byte) : State := { s with mem := Memory.write s.mem a v }

/-- `MemWrite(a, 1, v)` (20_memory.md R53). -/
def State.memWrite (s : State) (a : Nat) (v : Byte) : Except Fault State :=
  if 255 < a then .error (.memRange a) else .ok (s.store a v)

/-! ## Flags, the output channel and the program counter -/

/-- Write the three flags (10_state.md R32). -/
def State.setFlags (s : State) (f : Flags) : State := { s with flags := f }

/-- `Out(v)` (10_state.md R39). -/
def State.emit (s : State) (v : Byte) : State := { s with output := s.output ++ [v] }

/-- `pc <- pc + len` (10_state.md R29). -/
def State.advance (s : State) (len : Nat) : State := { s with pc := s.pc + BitVec.ofNat 9 len }

/-- `pc <- t` for an 8-bit target (44_control.md R165). -/
def State.jump (s : State) (t : Byte) : State := { s with pc := t.setWidth 9 }

/-- `halt` (10_state.md R34). -/
def State.halt (s : State) : State := { s with status := .halted }

/-! ## The stack pointer (10_state.md R26, R27) -/

/-- The address a push writes to: SP after the decrement (10_state.md R27). -/
def pushAddress (sp : Byte) : Byte := sp - 1

/-- SP before a push, or `STACK_RANGE` if it is 0 (43_stack.md R150, R151). -/
def State.spForPush (s : State) : Except Fault Byte := do
  let sp ← s.readReg spIdx
  if sp = 0 then .error (.stackRange sp) else .ok sp

/-- R7 plus 1, the new SP of a pop, or `STACK_RANGE` if R7 is 255 (43_stack.md R152, R153). -/
def State.spAfterPop (s : State) : Except Fault Byte := do
  let sp ← s.readReg spIdx
  if sp = 255 then .error (.stackRange sp) else .ok (sp + 1)

/-! ## Faults (60_exceptions.md R182, R184) -/

/-- The cause code (60_exceptions.md R182). -/
def Fault.code : Fault → BitVec 4
  | .illegalOpcode _ => 1
  | .aluUnsupported => 2
  | .memRange _ => 3
  | .regIndex _ => 4
  | .stackRange _ => 5
  | .retAddrRange _ => 6
  | .uninitReg _ => 7
  | .uninitMem _ => 8
  | .loadError _ => 9

/-- The 9-bit `fault_info` (60_exceptions.md R182). `aluUnsupported` has none and is never raised. Addresses and
return addresses that a reachable state raises are at most 256 (log 9). A refused image of 512 bytes or more has a
length the field cannot hold: a free value (log 6). -/
def Fault.info : Fault → PcWord
  | .illegalOpcode op => op.setWidth 9
  | .aluUnsupported => 0
  | .memRange addr => BitVec.ofNat 9 addr
  | .regIndex o => o.setWidth 9
  | .stackRange sp => sp.setWidth 9
  | .retAddrRange ra => BitVec.ofNat 9 ra
  | .uninitReg r => BitVec.ofNat 9 r.val
  | .uninitMem addr => BitVec.ofNat 9 addr
  | .loadError len => if len < 512 then BitVec.ofNat 9 len else Config.wideLoadInfo len

/-- Fault entry (60_exceptions.md R184): status and fault record are written, everything else keeps the value it had
before the step, `fault_pc` being the pc at which the step began. There is no return from a fault (R187): only reset
leaves the status Faulted. -/
def State.enterFault (s : State) (f : Fault) : State :=
  { s with status := .faulted, fault := { cause := f.code, pc := s.pc, info := f.info } }

/-- Commit or discard the working copy (00_scope.md R11; 40_execution_loop.md R107): a finished body's state becomes
the state, a raise enters its fault from the state before the step. -/
def commit (s : State) (body : Except Fault State) : Host.Outcome State Fault Refusal :=
  match body with
  | .ok s' => .next s'
  | .error f => .next (s.enterFault f)

end Sys2Proof.Machine
end

