-- ==== Sys2Proof/Machine/Operands.lean ====
section
/-! DEFINITION. The operand forms (30_encoding.md R72 to R74; 40_execution_loop.md R105, R106). There are two: a
register index, which is the whole operand byte, and an immediate, which is the operand byte itself. -/

namespace Sys2Proof.Machine

/-- The operand byte that names a register: its plain index (30_encoding.md R73, R75). -/
def regByte (i : RegIdx) : Byte := BitVec.ofNat 8 i.val

/-- A register operand: the whole byte names a register, or raises `REG_INDEX` (30_encoding.md R73). A step has made
the check before the instruction executes; a meaning run directly on an ill-formed instruction raises the same fault
(log 10). -/
def regOperand (o : Byte) : Except Fault RegIdx :=
  if h : namesRegister o then .ok ⟨o.toNat, h⟩ else .error (.regIndex o)

/-- Both register operands of format RR, checked in operand order (40_execution_loop.md R105). -/
def regOperands (a b : Byte) : Except Fault (RegIdx × RegIdx) := do
  let ra ← regOperand a
  let rb ← regOperand b
  .ok (ra, rb)

/-- The immediate operand: the byte, neither extended nor scaled (30_encoding.md R74). -/
def immOperand (o : Byte) : Byte := o

end Sys2Proof.Machine
end

