-- ==== Sys2Proof/Machine/Flags.lean ====
section
/-! DEFINITION. The ALU's results and the flag computation of CMP (41_alu.md). -/

namespace Sys2Proof.Machine

/-- The exact sum narrowed to 8 bits (41_alu.md R120, R128). -/
def aluAdd (x y : Byte) : Byte := BitVec.ofNat 8 (x.toNat + y.toNat)

/-- The exact product narrowed to 8 bits (41_alu.md R122, R128). -/
def aluMul (x y : Byte) : Byte := BitVec.ofNat 8 (x.toNat * y.toNat)

/-- The outcome of a comparison (41_alu.md R125). -/
inductive Comparison where
  | equal | greater | less
deriving DecidableEq, Repr

/-- Compare as unsigned integers (41_alu.md R125). -/
def compareBytes (x y : Byte) : Comparison :=
  if x.toNat = y.toNat then .equal else if y.toNat < x.toNat then .greater else .less

/-- The flags a comparison starts from: the prior ones under `retain`, all 0 under `clear` (41_alu.md R126; D4). -/
def CmpPolicy.base (p : CmpPolicy) (f : Flags) : Flags :=
  match p with
  | .retain => f
  | .clear => { e := false, g := false, l := false }

/-- Set the flag of the outcome and no other (41_alu.md R126). -/
def Flags.mark (f : Flags) : Comparison → Flags
  | .equal => { f with e := true }
  | .greater => { f with g := true }
  | .less => { f with l := true }

/-- The flags after CMP (41_alu.md R124, R126). -/
def flagsAfterCmp (p : CmpPolicy) (x y : Byte) (f : Flags) : Flags :=
  (CmpPolicy.base p f).mark (compareBytes x y)

end Sys2Proof.Machine
end

