-- ==== Sys2Proof/Machine/Alu.lean ====
section
/-! DEFINITION. The ALU instructions: ADD, MUL, CMP (41_alu.md). -/

namespace Sys2Proof.Machine

/-- A body that writes an ALU result of x[a] and x[b] to x[a]: a is read before b, and both before the write
(41_alu.md R120, R122). -/
def aluBody (op : Byte → Byte → Byte) (a b : Byte) (s : State) : Except Fault State := do
  let (ra, rb) ← regOperands a b
  let va ← s.readReg ra
  let vb ← s.readReg rb
  .ok ((s.writeReg ra (op va vb)).advance 3)

/-- ADD a, b (41_alu.md R120). -/
def execAdd (a b : Byte) (s : State) : Host.Outcome State Fault Refusal :=
  commit s (aluBody aluAdd a b s)

/-- MUL a, b (41_alu.md R122). -/
def execMul (a b : Byte) (s : State) : Host.Outcome State Fault Refusal :=
  commit s (aluBody aluMul a b s)

/-- The body of CMP: it writes flags and no register (41_alu.md R124). -/
def cmpBody (a b : Byte) (s : State) : Except Fault State := do
  let (ra, rb) ← regOperands a b
  let va ← s.readReg ra
  let vb ← s.readReg rb
  .ok ((s.setFlags (flagsAfterCmp cmpPolicy va vb s.flags)).advance 3)

/-- CMP a, b (41_alu.md R124). -/
def execCmp (a b : Byte) (s : State) : Host.Outcome State Fault Refusal :=
  commit s (cmpBody a b s)

end Sys2Proof.Machine
end

