-- ==== Sys2Proof/Machine/Control.lean ====
section
/-! DEFINITION. Control transfer: CALL, RET, JMP, JEQ, JNE, HLT (44_control.md). -/

namespace Sys2Proof.Machine

/-- The return address of a CALL as an integer: the address after its operand byte (44_control.md R160). -/
def returnAddress (s : State) : Nat := s.pc.toNat + 2

/-- The body of CALL: the target register is read after the decrement and the store (44_control.md R160). -/
def callBody (r : Byte) (s : State) : Except Fault State := do
  let rr ← regOperand r
  let sp ← s.spForPush
  let ra := returnAddress s
  if 255 < ra then .error (.retAddrRange ra)
  else
    let s1 := s.writeReg spIdx (pushAddress sp)
    let s2 ← s1.memWrite (pushAddress sp).toNat (BitVec.ofNat 8 ra)
    let t ← s2.readReg rr
    .ok (s2.jump t)

/-- CALL r (44_control.md R160). -/
def execCall (r : Byte) (s : State) : Host.Outcome State Fault Refusal :=
  commit s (callBody r s)

/-- The body of RET (44_control.md R162). -/
def retBody (s : State) : Except Fault State := do
  let sp ← s.readReg spIdx
  let t ← s.memRead sp.toNat
  let sp' ← s.spAfterPop
  .ok ((s.writeReg spIdx sp').jump t)

/-- RET (44_control.md R162). -/
def execRet (s : State) : Host.Outcome State Fault Refusal :=
  commit s (retBody s)

/-- Jump to x[r] if the condition holds, else fall through; the register is read only when the jump is taken
(44_control.md R164, R166, R168). -/
def jumpIfBody (taken : Bool) (r : Byte) (s : State) : Except Fault State := do
  let rr ← regOperand r
  if taken then
    let t ← s.readReg rr
    .ok (s.jump t)
  else .ok (s.advance 2)

/-- JMP r (44_control.md R164). -/
def execJmp (r : Byte) (s : State) : Host.Outcome State Fault Refusal :=
  commit s (jumpIfBody true r s)

/-- JEQ r (44_control.md R166). -/
def execJeq (r : Byte) (s : State) : Host.Outcome State Fault Refusal :=
  commit s (jumpIfBody s.flags.e r s)

/-- JNE r (44_control.md R168). -/
def execJne (r : Byte) (s : State) : Host.Outcome State Fault Refusal :=
  commit s (jumpIfBody (!s.flags.e) r s)

/-- HLT: the status becomes Halted and the pc keeps the address of the HLT byte (44_control.md R170). -/
def execHlt (s : State) : Host.Outcome State Fault Refusal :=
  commit s (.ok s.halt)

end Sys2Proof.Machine
end

