-- ==== Sys2Proof/Machine/DataIo.lean ====
section
/-! DEFINITION. Data movement and output: LDI, PRN (42_data_io.md). -/

namespace Sys2Proof.Machine

/-- The body of LDI: it reads neither a register nor memory (42_data_io.md R140, R141). -/
def ldiBody (r imm : Byte) (s : State) : Except Fault State := do
  let rr ← regOperand r
  .ok ((s.writeReg rr (immOperand imm)).advance 3)

/-- LDI r, imm (42_data_io.md R140). -/
def execLdi (r imm : Byte) (s : State) : Host.Outcome State Fault Refusal :=
  commit s (ldiBody r imm s)

/-- The body of PRN (42_data_io.md R142). -/
def prnBody (r : Byte) (s : State) : Except Fault State := do
  let rr ← regOperand r
  let v ← s.readReg rr
  .ok ((s.emit v).advance 2)

/-- PRN r (42_data_io.md R142). -/
def execPrn (r : Byte) (s : State) : Host.Outcome State Fault Refusal :=
  commit s (prnBody r s)

end Sys2Proof.Machine
end

