-- ==== Sys2Proof/Machine/Stack.lean ====
section
/-! DEFINITION. The stack instructions: PUSH, POP (43_stack.md). Each statement sees the writes of the one before
(00_scope.md R11; 92_eei_decisions.md D23). -/

namespace Sys2Proof.Machine

/-- The body of PUSH: the register is read after the decrement (43_stack.md R150). -/
def pushBody (r : Byte) (s : State) : Except Fault State := do
  let rr ← regOperand r
  let sp ← s.spForPush
  let s1 := s.writeReg spIdx (pushAddress sp)
  let v ← s1.readReg rr
  let s2 ← s1.memWrite (pushAddress sp).toNat v
  .ok (s2.advance 2)

/-- PUSH r (43_stack.md R150). -/
def execPush (r : Byte) (s : State) : Host.Outcome State Fault Refusal :=
  commit s (pushBody r s)

/-- The body of POP: R7 is read again after the write to r (43_stack.md R152). -/
def popBody (r : Byte) (s : State) : Except Fault State := do
  let rr ← regOperand r
  let sp ← s.readReg spIdx
  let v ← s.memRead sp.toNat
  let s1 := s.writeReg rr v
  let sp' ← s1.spAfterPop
  .ok ((s1.writeReg spIdx sp').advance 2)

/-- POP r (43_stack.md R152). -/
def execPop (r : Byte) (s : State) : Host.Outcome State Fault Refusal :=
  commit s (popBody r s)

end Sys2Proof.Machine
end

