-- ==== Sys2Proof/Machine/Fetch.lean ====
section
/-! DEFINITION. Fetching, decoding and checking one instruction (40_execution_loop.md R101 to R106), and placing an
instruction where the next step fetches it. -/

namespace Sys2Proof.Machine

/-- Operand fetch (40_execution_loop.md R104): operand byte k of an instruction that has n of them, read at pc + k;
an instruction that has no such operand reads nothing. -/
def State.operandByte (s : State) (n k : Nat) : Except Fault Byte :=
  if k ≤ n then s.memRead (s.pc.toNat + k) else .ok 0

/-- Opcode fetch, decode, operand fetch, operand check and operand binding, in that order (40_execution_loop.md R108;
60_exceptions.md R185). -/
def State.fetchInstr (m : OpcodeMap) (s : State) : Except Fault Instr := do
  let op ← s.memRead s.pc.toNat
  match m.mnemonic? op with
  | none => .error (.illegalOpcode op)
  | some k =>
    let n := k.format.operandCount
    let o1 ← s.operandByte n 1
    let o2 ← s.operandByte n 2
    let i := k.bindOperands o1 o2
    match i.badRegister? with
    | some o => .error (.regIndex o)
    | none => .ok i

/-- Store bytes at ascending addresses, leaving out what lies above address 255. -/
def Memory.place : Memory → Nat → List Byte → Memory
  | m, _, [] => m
  | m, a, b :: bs => Memory.place (if a < 256 then Memory.write m a b else m) (a + 1) bs

/-- The state with a word of the opcode table stored at the pc and the status Running, so that the next step fetches
and runs it (log 5). -/
def State.placeWord (s : State) (nbits w : Nat) : State :=
  { s with status := .running, mem := Memory.place s.mem s.pc.toNat (tableBytes nbits w) }

end Sys2Proof.Machine
end

