-- ==== Sys2Proof/Machine/Step.lean ====
section
/-! DEFINITION. One step of the loop (40_execution_loop.md R100, R108, R109). -/

namespace Sys2Proof.Machine

/-- One step under an opcode map (00_scope.md R8). In any status but Running the core takes no step: the state stays
as it is (R109; log 4). A raise of the fetch enters its fault; else the instruction executes. -/
def stepWith (m : OpcodeMap) (s : State) : Host.Outcome State Fault Refusal :=
  match s.status with
  | .running =>
    match s.fetchInstr m with
    | .ok i => exec i s
    | .error f => .next (s.enterFault f)
  | .idle => .next s
  | .halted => .next s
  | .faulted => .next s

/-- One step under the default opcode map. -/
def step (s : State) : Host.Outcome State Fault Refusal := stepWith defaultOpcodeMap s

/-- The state with an instruction stored where step fetches its next one. -/
def State.withFetchWord (s : State) (nbits w : Nat) : State := s.placeWord nbits w

end Sys2Proof.Machine
end

