-- ==== Sys2Proof/Machine/Interface.lean ====
section
/-! DEFINITION. The core's interfaces to its host (10_state.md R38): reset, load, start, the status report, the
output channel as text, and the read-only debug view. They act between steps; no step calls them. -/

namespace Sys2Proof.Machine

/-! ## Program text (70_reset_and_hazards.md R213) -/

/-- White space in a line of program text. -/
def isBlankChar (c : Char) : Bool := c == ' ' || c == '\t' || c == '\r'

/-- A binary digit. -/
def isBinaryDigit (c : Char) : Bool := c == '0' || c == '1'

/-- A binary literal read most significant bit first (R213). -/
def binaryValue (cs : List Char) : Byte :=
  cs.foldl (fun v c => 2 * v + (if c == '1' then 1 else 0)) 0

/-- The part of a line before its comment; the white space between text and comment belongs to the comment, as in
vector V-L12. -/
def stripComment (line : List Char) : List Char :=
  let text := line.takeWhile (· != '#')
  if line.contains '#' then (text.reverse.dropWhile isBlankChar).reverse else text

/-- What a line stands for: nothing (blank or comment), the byte of an 8-digit binary literal, a parse failure (a
token that is not binary), or what R213 and N13 leave open (log 8). -/
def parseLine (line : List Char) : LineMeaning :=
  let text := stripComment line
  if text.all isBlankChar then .ignored
  else if text.any (fun c => !isBinaryDigit c && !isBlankChar c) then .malformed
  else if text.all isBinaryDigit && text.length == 8 then .byte (binaryValue text)
  else Config.unsettledLine text

/-- The lines of a text; `cur` holds the current line's characters, last one first. -/
def splitLines : List Char → List Char → List (List Char)
  | cur, [] => [cur.reverse]
  | cur, c :: cs => if c = '\n' then cur.reverse :: splitLines [] cs else splitLines (c :: cur) cs

/-- The bytes of the lines in file order; none if a line is malformed. -/
def parseLines : List (List Char) → Option (List Byte)
  | [] => some []
  | line :: rest =>
    match parseLine line with
    | .ignored => parseLines rest
    | .malformed => none
    | .byte b => (parseLines rest).map (b :: ·)

/-- The image a program text stands for, or none for a parse failure (R213). -/
def parseSource (text : List Char) : Option (List Byte) := parseLines (splitLines [] text)

/-! ## Load, start, reset (70_reset_and_hazards.md R210 to R212) -/

/-- Write an image from an address up (R212: `LOAD_BASE` = 0). -/
def Memory.loadAt : Memory → Nat → List Byte → Memory
  | m, _, [] => m
  | m, a, b :: bs => Memory.loadAt (Memory.write m a b) (a + 1) bs

/-- A refused load (60_exceptions.md R183): status Faulted, cause 9, `fault_pc` 0; nothing else is written. -/
def State.refuseLoad (s : State) (len : Nat) : State :=
  { s with status := .faulted,
           fault := { cause := (Fault.loadError len).code, pc := 0, info := (Fault.loadError len).info } }

/-- Load (R212): while Idle, an image of at most 256 bytes is written from address 0 and a longer one is refused. In
any other status the load interface does nothing (log 7). -/
def State.load (s : State) (image : List Byte) : State :=
  match s.status with
  | .idle =>
    if image.length ≤ 256 then { s with mem := Memory.loadAt s.mem 0 image } else s.refuseLoad image.length
  | .running => s
  | .halted => s
  | .faulted => s

/-- Load a program text (R213): a parse failure is refused with `LOAD_ERROR(0)`. -/
def State.loadSource (s : State) (text : List Char) : State :=
  match parseSource text with
  | some image => s.load image
  | none =>
    match s.status with
    | .idle => s.refuseLoad 0
    | .running => s
    | .halted => s
    | .faulted => s

/-- Start (R211): Idle becomes Running; in any other status it has no effect. -/
def State.start (s : State) : State :=
  match s.status with
  | .idle => { s with status := .running }
  | .running => s
  | .halted => s
  | .faulted => s

/-- What the host can do to the core (10_state.md R38). -/
inductive HostInput where
  | reset
  | load (image : List Byte)
  | loadSource (text : List Char)
  | start
deriving DecidableEq, Repr

/-- The effect of a host input. Reset applies in any status (R210). -/
def State.input (s : State) : HostInput → State
  | .reset => State.reset
  | .load image => s.load image
  | .loadSource text => s.loadSource text
  | .start => s.start

/-! ## What the host sees -/

/-- How a run ended (40_execution_loop.md R110; 60_exceptions.md R188). -/
inductive RunEnd where
  | notEnded
  | ordinary
  | fatal (r : FaultRecord)
deriving DecidableEq, Repr

/-- The report the host makes of the run status and the fault record (60_exceptions.md R188). -/
def State.runEnd (s : State) : RunEnd :=
  match s.status with
  | .idle => .notEnded
  | .running => .notEnded
  | .halted => .ordinary
  | .faulted => .fatal s.fault

/-- The decimal digits of a byte (10_state.md R39). -/
def decimalDigits (v : Byte) : List Char :=
  let digit (n : Nat) : Char := Char.ofNat (48 + n % 10)
  let n := v.toNat
  if n < 10 then [digit n]
  else if n < 100 then [digit (n / 10), digit n]
  else [digit (n / 100), digit (n / 10), digit n]

/-- The output channel as the host prints it: each value in decimal, then a newline (10_state.md R39). -/
def renderOutput (out : List Byte) : List Char := out.flatMap fun v => decimalDigits v ++ ['\n']

/-- A register as the debug view shows it: its value, or nothing where its tag is clear. -/
def Reg.shown (r : Reg) : Option Byte := if r.defined then some r.value else none

/-- Everything the host can read (10_state.md R38): the debug view of registers, pc, flags and cells, the status
interface and the output channel. -/
structure View where
  regs   : List (Option Byte)
  pc     : PcWord
  flags  : Flags
  cells  : List (Option Byte)
  status : RunStatus
  fault  : FaultRecord
  output : List Byte
deriving DecidableEq, Repr

/-- What the host reads of a state. -/
def State.view (s : State) : View where
  regs   := (List.finRange 8).map fun i => (s.reg i).shown
  pc     := s.pc
  flags  := s.flags
  cells  := (List.range 256).map (Memory.read? s.mem)
  status := s.status
  fault  := s.fault
  output := s.output

end Sys2Proof.Machine
end

