-- ==== Sys2Proof/Safety.lean ====
section
/-! DEFINITION. The invariants of the machine and what counts as a safe run, in the terms the statements use. -/

namespace Sys2Proof.Machine

/-- SP holds a defined value (10_state.md R26). -/
abbrev State.SpDefined (s : State) : Prop := (s.reg spIdx).defined = true

/-- The pc is one of 0 to 256 (10_state.md R28). -/
abbrev State.PcInRange (s : State) : Prop := s.pc.toNat ≤ 256

/-- The fault record is all 0 until a fault is entered, and then holds one of the codes 1 and 3 to 9
(10_state.md R35; 60_exceptions.md R182, R183). -/
abbrev State.RecordMatches (s : State) : Prop :=
  if s.status = .faulted then s.fault.cause ∈ ([1, 3, 4, 5, 6, 7, 8, 9] : List (BitVec 4))
  else s.fault = FaultRecord.none

/-- The invariant of the machine. -/
structure State.Inv (s : State) : Prop where
  memory : Memory.wf s.mem
  sp     : s.SpDefined
  pc     : s.PcInRange
  record : s.RecordMatches

/-- A run is safe as long as it has entered no fault (60_exceptions.md R181: every fault is fatal). -/
abbrev State.Safe (s : State) : Prop := s.status ≠ .faulted

end Sys2Proof.Machine
end

