-- ==== Sys2Proof/Certificates/Slice0/Obligations.lean ====
section
/-! DEFINITION. The statements for the provers: what the rules of spec/ say the instructions and the machine do. -/

/-! ## Vocabulary -/

namespace Sys2Proof.Certificates

open Sys2Proof Sys2Proof.Machine

/-- Register i holds the defined value v. -/
abbrev Holds (s : State) (i : RegIdx) (v : Byte) : Prop := s.reg i = { value := v, defined := true }

/-- Register i is undefined (10_state.md R24). -/
abbrev Undefined (s : State) (i : RegIdx) : Prop := (s.reg i).defined = false

/-- Every register but the listed ones keeps its value and its tag. -/
def SameRegsBut (js : List RegIdx) (s t : State) : Prop := ∀ j, j ∉ js → t.reg j = s.reg j

/-- Every byte of memory but those at the listed addresses reads as before. -/
def SameMemBut (as : List Nat) (s t : State) : Prop := ∀ a, a ∉ as → Memory.read? t.mem a = Memory.read? s.mem a

/-- The run status and the fault record are unchanged. -/
abbrev SameStatus (s t : State) : Prop := t.status = s.status ∧ t.fault = s.fault

/-- The instruction raises f: the next state is that of its fault entry, and no other effect. -/
def Raises (i : Instr) (s : State) (f : Fault) : Prop := exec i s = .next (s.enterFault f)

/-- The registers an instruction writes (10_state.md R23, third column); operand bytes that name no register name
none here. -/
def writtenRegisters : Instr → RegIdx → Prop
  | .hlt, _ => False
  | .ldi r _, j => r = regByte j
  | .prn _, _ => False
  | .mul a _, j => a = regByte j
  | .cmp _ _, _ => False
  | .push _, j => j = spIdx
  | .pop r, j => r = regByte j ∨ j = spIdx
  | .call _, j => j = spIdx
  | .ret, j => j = spIdx
  | .jmp _, _ => False
  | .jeq _, _ => False
  | .jne _, _ => False
  | .add a _, j => a = regByte j

/-- The registers an instruction reads when the Equal flag is e (10_state.md R23, second column). -/
def readRegisters (e : Bool) : Instr → RegIdx → Prop
  | .hlt, _ => False
  | .ldi _ _, _ => False
  | .prn r, j => r = regByte j
  | .mul a b, j => a = regByte j ∨ b = regByte j
  | .cmp a b, j => a = regByte j ∨ b = regByte j
  | .push r, j => j = spIdx ∨ r = regByte j
  | .pop _, j => j = spIdx
  | .call r, j => j = spIdx ∨ r = regByte j
  | .ret, j => j = spIdx
  | .jmp r, j => r = regByte j
  | .jeq r, j => e = true ∧ r = regByte j
  | .jne r, j => e = false ∧ r = regByte j
  | .add a b, j => a = regByte j ∨ b = regByte j

/-- The two states agree on everything but register j. -/
def AgreeBut (j : RegIdx) (s t : State) : Prop :=
  (∀ k, k ≠ j → s.reg k = t.reg k) ∧ s.pc = t.pc ∧ s.flags = t.flags ∧ s.status = t.status ∧ s.fault = t.fault ∧
    s.output = t.output ∧ s.mem = t.mem

/-- The literal of a byte in program text: eight binary digits, most significant first (70_reset_and_hazards.md
R213). -/
def literal (b : Byte) : List Char := (List.range 8).map fun k => if b.getMsbD k then '1' else '0'

end Sys2Proof.Certificates

open Sys2Proof Sys2Proof.Machine Sys2Proof.Certificates

/-! ## Reset, start, load -/

/-- 10_state.md R41 and 70_reset_and_hazards.md R210 (the spec's decisions D11, D12, D13, D24): what reset leaves, in
whatever state it is applied. -/
def Obligations.ResetLeavesTheStatedValues : Prop :=
  ∀ s : State, (∀ i, i ≠ spIdx → Undefined (s.input .reset) i) ∧ Holds (s.input .reset) spIdx 0xF4 ∧
    (s.input .reset).pc = 0 ∧ (s.input .reset).flags.e = false ∧ (s.input .reset).flags.g = false ∧
    (s.input .reset).flags.l = false ∧ (s.input .reset).status = .idle ∧ (s.input .reset).fault.cause = 0 ∧
    (s.input .reset).fault.pc = 0 ∧ (s.input .reset).fault.info = 0 ∧ (s.input .reset).output = [] ∧
    (∀ a, Memory.read? (s.input .reset).mem a = none) ∧ s.input .reset = State.reset ∧
    State.reset.start.status = .running

/-- 70_reset_and_hazards.md R211 (the spec's decisions D20, D24): start moves Idle to Running, has no effect in any
other status, and after reset the first opcode fetch is at address 0. -/
def Obligations.StartLeavesIdleOnly : Prop :=
  (∀ s : State, s.status = .idle → s.start = { s with status := .running }) ∧
  (∀ s : State, s.status ≠ .idle → s.start = s) ∧ State.reset.start.pc = 0

/-- 70_reset_and_hazards.md R212 (the spec's decisions D12, D20): while Idle an image of at most 256 bytes is written
from address 0 and nothing else changes; a longer one is refused with LOAD_ERROR of its length (here for the lengths
the 9-bit info holds), `fault_pc` 0, and nothing written; and after an empty image the first step faults with
UNINIT_MEM(0). That a second load while Idle leaves the cells beyond its image as the first one wrote them is the
MODEL'S reading (DEDUCED, log 7): R212 speaks only of cells that stay undefined. -/
def Obligations.LoadWritesTheImageOrRefusesIt : Prop :=
  (∀ (s : State) (image : List Byte), s.status = .idle → image.length ≤ 256 →
    (∀ k (h : k < image.length), Memory.read? (s.load image).mem k = some image[k]) ∧
    (∀ a, image.length ≤ a → Memory.read? (s.load image).mem a = Memory.read? s.mem a) ∧
    (s.load image) = { s with mem := (s.load image).mem }) ∧
  (∀ (s : State) (image : List Byte), s.status = .idle → 256 < image.length →
    s.load image = { s with status := .faulted, fault := (s.load image).fault } ∧
    (s.load image).fault.cause = 9 ∧ (s.load image).fault.pc = 0 ∧
    (image.length < 512 → (s.load image).fault.info.toNat = image.length)) ∧
  (∀ m : OpcodeMap, stepWith m (State.reset.load []).start = .next ((State.reset.load []).start.enterFault (.uninitMem 0)))

/-- 40_execution_loop.md R109 (the spec's decision D13), and the MODEL'S CHOICE of what a step answers when none is
taken (log 4): in Idle, Halted and Faulted a step
answers the state unchanged, and Halted and Faulted are left by no host input but reset (a load there: log 7). -/
def Obligations.OnlyRunningTakesAStep : Prop :=
  (∀ (m : OpcodeMap) (s : State), s.status ≠ .running → stepWith m s = .next s) ∧
  (∀ (s : State) (x : HostInput), s.status = .halted ∨ s.status = .faulted → x ≠ .reset → s.input x = s)

/-- 40_execution_loop.md R109 (the spec's decisions D13, D20): Idle is left by start or by a refused load, and by
nothing else the host can do. -/
def Obligations.IdleIsLeftByStartOrRefusedLoad : Prop :=
  ∀ (s : State) (x : HostInput), s.status = .idle → (s.input x).status ≠ .idle →
    (x = .start ∧ (s.input x).status = .running) ∨ ((s.input x).status = .faulted ∧ (s.input x).fault.cause = 9)

/-- 70_reset_and_hazards.md R213: an 8-digit binary literal is its byte, most significant bit first, alone on its line
or before a comment; a comment line and an empty line are ignored; a token that is not binary is a parse failure. -/
def Obligations.LiteralLinesParse : Prop :=
  (∀ b : Byte, parseLine (literal b) = .byte b) ∧
  (∀ (b : Byte) (c : List Char), parseLine (literal b ++ '#' :: c) = .byte b) ∧
  (∀ c : List Char, parseLine ('#' :: c) = .ignored) ∧ parseLine [] = .ignored ∧
  parseLine ['1', '0', '0', '0', '0', '0', '2', 'x'] = .malformed

/-! ## Encoding and fetching -/

/-- 30_encoding.md R75: the three opcode values the source fixes, under every opcode map, and its encoded example,
whose register operand is the plain index and whose immediate is the plain value. -/
def Obligations.SourceExampleDecodes : Prop :=
  ∀ m : OpcodeMap, m.code .HLT = 0b00000001 ∧ m.code .LDI = 0b10000010 ∧ m.code .PRN = 0b01000111 ∧
    decode m [0b10000010, 0b00000000, 0b00001000, 0b01000111, 0b00000000, 0b00000001] = .ok (.ldi 0 8) ∧
    decode m [0b01000111, 0b00000000, 0b00000001] = .ok (.prn 0) ∧ decode m [0b00000001] = .ok .hlt

/-- 30_encoding.md R72 and R77: a word of each other instruction, written out from the encoding table, decodes to it
under the default map. Its ten opcode values are PRESUMED (log 2; the spec's decision D1). -/
def Obligations.DefaultWordsDecode : Prop :=
  decode defaultOpcodeMap [0b10100010, 0b00000001, 0b00000010] = .ok (.mul 1 2) ∧
  decode defaultOpcodeMap [0b10100111, 0b00000011, 0b00000100] = .ok (.cmp 3 4) ∧
  decode defaultOpcodeMap [0b01000101, 0b00000111] = .ok (.push 7) ∧
  decode defaultOpcodeMap [0b01000110, 0b00000110] = .ok (.pop 6) ∧
  decode defaultOpcodeMap [0b01010000, 0b00000001] = .ok (.call 1) ∧
  decode defaultOpcodeMap [0b00010001] = .ok .ret ∧
  decode defaultOpcodeMap [0b01010100, 0b00000011] = .ok (.jmp 3) ∧
  decode defaultOpcodeMap [0b01010101, 0b00000010] = .ok (.jeq 2) ∧
  decode defaultOpcodeMap [0b01010110, 0b00000010] = .ok (.jne 2) ∧
  decode defaultOpcodeMap [0b10100000, 0b00000110, 0b00000101] = .ok (.add 6 5)

/-- 30_encoding.md R71: an instruction's length is 1 plus the operand count of its mnemonic, and the opcode byte alone
fixes it, whatever operand bytes follow. -/
def Obligations.LengthIsKnownFromTheOpcodeByte : Prop :=
  ∀ (m : OpcodeMap) (op : Byte) (rest rest' : List Byte) (i i' : Instr), decode m (op :: rest) = .ok i →
    decode m (op :: rest') = .ok i' →
    i.length = i'.length ∧ (encode m i).length = 1 + i.mnemonic.format.operandCount ∧
      (encode m i').length = (encode m i).length

/-- 00_scope.md R8, 40_execution_loop.md R102 (the spec's decision D1): under a legal map each opcode byte has one
meaning, and the default map is legal. -/
def Obligations.LegalMapsAreUnambiguous : Prop :=
  (∀ m : OpcodeMap, m.Legal → ∀ k, m.mnemonic? (m.code k) = some k) ∧ defaultOpcodeMap.Legal

/-- Decode and encode agree: under every legal map, the bytes of a well-formed instruction, whatever follows them,
decode to it (30_encoding.md R70 to R74). -/
def Obligations.DecodeOfEncodeIsTheInstruction : Prop :=
  ∀ m : OpcodeMap, m.Legal → ∀ i : Instr, i.WellFormed → ∀ rest, decode m (encode m i ++ rest) = .ok i

/-- What decodes is the encoding of what it decodes to, and well formed: no byte is dropped and no reserved form gets
through, under every map (30_encoding.md R73, R80). -/
def Obligations.DecodedBytesAreTheEncoding : Prop :=
  ∀ (m : OpcodeMap) (bytes : List Byte) (i : Instr), decode m bytes = .ok i →
    i.WellFormed ∧ ∃ rest, bytes = encode m i ++ rest

/-- A step runs the decoded instruction: when the bytes at the pc decode to i, the step is exec of i at that state
(40_execution_loop.md R108). -/
def Obligations.StepRunsTheDecodedInstruction : Prop :=
  ∀ (m : OpcodeMap) (s : State) (bytes : List Byte) (i : Instr), s.status = .running →
    (∀ k (h : k < bytes.length), s.memRead (s.pc.toNat + k) = .ok bytes[k]) → decode m bytes = .ok i →
    stepWith m s = exec i s ∧ (m = defaultOpcodeMap → step s = exec i s)

/-- 40_execution_loop.md R101, R102, R104, R105 (the spec's decisions D5, D6, D7, D12, D14): what a step raises before
it executes, in order. Opcode fetch above address 255, then an undefined opcode cell; an opcode not in the map,
whatever the cells after it hold; the first operand byte that cannot be read, with the fault of that read; the first
register operand above 7. -/
def Obligations.FetchRaisesInOrder : Prop :=
  ∀ (m : OpcodeMap) (s : State), s.status = .running →
    (255 < s.pc.toNat → stepWith m s = .next (s.enterFault (.memRange s.pc.toNat))) ∧
    (s.pc.toNat ≤ 255 → Memory.read? s.mem s.pc.toNat = none →
      stepWith m s = .next (s.enterFault (.uninitMem s.pc.toNat))) ∧
    (∀ op, s.memRead s.pc.toNat = .ok op → (∀ k, m.code k ≠ op) →
      stepWith m s = .next (s.enterFault (.illegalOpcode op))) ∧
    (∀ op k, s.memRead s.pc.toNat = .ok op → m.mnemonic? op = some k →
      ∀ n f, 1 ≤ n → n ≤ k.format.operandCount → s.memRead (s.pc.toNat + n) = .error f →
        (∀ n', 1 ≤ n' → n' < n → ∃ o, s.memRead (s.pc.toNat + n') = .ok o) →
        stepWith m s = .next (s.enterFault f)) ∧
    (∀ op k o1 o2, s.memRead s.pc.toNat = .ok op → m.mnemonic? op = some k →
      (1 ≤ k.format.operandCount → s.memRead (s.pc.toNat + 1) = .ok o1) →
      (2 ≤ k.format.operandCount → s.memRead (s.pc.toNat + 2) = .ok o2) →
      ∀ earlier o later, (k.bindOperands o1 o2).registerOperands = earlier ++ o :: later →
        (∀ x ∈ earlier, x.toNat ≤ 7) → 7 < o.toNat → stepWith m s = .next (s.enterFault (.regIndex o)))

/-- 30_encoding.md R79 (the spec's decision D5; the count rests on the default map, log 2): an opcode byte that is no
value of the map is illegal, and under the default map 243 of the 256 byte values are, 0x00 among them. -/
def Obligations.IllegalOpcodeBytes : Prop :=
  (∀ (m : OpcodeMap) (s : State) (op : Byte), s.status = .running → s.memRead s.pc.toNat = .ok op →
    (∀ k, m.code k ≠ op) → stepWith m s = .next (s.enterFault (.illegalOpcode op))) ∧
  ((List.range 256).filter fun b => (defaultOpcodeMap.mnemonic? (BitVec.ofNat 8 b)).isNone).length = 243 ∧
  defaultOpcodeMap.mnemonic? 0x00 = none

/-! ## Memory -/

/-- 20_memory.md R52 and R53 (the spec's decisions D6, D12): a write within 0 to 255 makes its cell hold the byte and
leaves every other cell, and all other state, alone; a read gives the cell's byte; an access above 255 and a read of
an undefined cell raise. -/
def Obligations.MemoryReadsAndWrites : Prop :=
  (∀ (s : State) (a : Nat) (v : Byte), a ≤ 255 → ∃ t, s.memWrite a v = .ok t ∧ t.memRead a = .ok v ∧
    SameMemBut [a] s t ∧ t = { s with mem := t.mem }) ∧
  (∀ (s : State) (a : Nat) (v : Byte), a ≤ 255 → Memory.read? s.mem a = some v → s.memRead a = .ok v) ∧
  (∀ (s : State) (a : Nat) (v : Byte), 255 < a → s.memWrite a v = .error (.memRange a)) ∧
  (∀ (s : State) (a : Nat), 255 < a → s.memRead a = .error (.memRange a)) ∧
  (∀ (s : State) (a : Nat), a ≤ 255 → Memory.read? s.mem a = none → s.memRead a = .error (.uninitMem a))

/-- The MODEL'S form of memory (log 3) is canonical: memories in it that read alike are equal data. -/
def Obligations.MemoriesThatReadAlikeAreEqual : Prop :=
  ∀ m m' : Memory, Memory.wf m → Memory.wf m' → (∀ a, Memory.read? m a = Memory.read? m' a) → m = m'

/-- 20_memory.md R64 (the spec's decision D17): the byte PUSH or CALL has just stored is the one a fetch at that
address reads, with no step in between. If it is no opcode, the step that fetches it reports that very byte; if it is
HLT's, the step halts. -/
def Obligations.FetchSeesTheStoredByte : Prop :=
  (∀ (m : OpcodeMap) (s t : State) (r : RegIdx) (sp v : Byte), s.status = .running → Holds s spIdx sp → sp ≠ 0 →
    r ≠ spIdx → Holds s r v → exec (.push (regByte r)) s = .next t →
    ((∀ k, m.code k ≠ v) → stepWith m { t with pc := (pushAddress sp).setWidth 9 } =
      .next (State.enterFault { t with pc := (pushAddress sp).setWidth 9 } (.illegalOpcode v))) ∧
    (v = 0x01 → stepWith m { t with pc := (pushAddress sp).setWidth 9 } =
      .next { t with pc := (pushAddress sp).setWidth 9, status := .halted })) ∧
  (∀ (m : OpcodeMap) (s t : State) (r : RegIdx) (sp : Byte), s.status = .running → Holds s spIdx sp →
    exec (.call (regByte r)) s = .next t → t.status = .running →
    (∀ k, (m.code k).toNat ≠ s.pc.toNat + 2) → ∃ ra : Byte, ra.toNat = s.pc.toNat + 2 ∧
      stepWith m { t with pc := (pushAddress sp).setWidth 9 } =
        .next (State.enterFault { t with pc := (pushAddress sp).setWidth 9 } (.illegalOpcode ra)))

/-! ## The instructions: result, faults, frame -/

/-- 42_data_io.md R140, R141: LDI r, imm. Every register, SP included, and every immediate; it reads no memory, and
before it executes it raises the fetch faults of its operand bytes. That exec, run directly on an operand above 7,
raises REG_INDEX is the MODEL'S CHOICE (log 10); the check a step makes is in FetchRaisesInOrder. -/
def Obligations.LdiLoadsTheImmediate : Prop :=
  (∀ (m : OpcodeMap) (r imm : Byte), encode m (.ldi r imm) = [0x82, r, imm]) ∧
  (∀ (s : State) (r : RegIdx) (imm : Byte), ∃ t, exec (.ldi (regByte r) imm) s = .next t ∧ Holds t r imm ∧
    t.pc = s.pc + 3 ∧ SameRegsBut [r] s t ∧ t.flags = s.flags ∧ t.output = s.output ∧ SameMemBut [] s t ∧
    SameStatus s t) ∧
  (∀ (s : State) (o imm : Byte), 7 < o.toNat → Raises (.ldi o imm) s (.regIndex o)) ∧
  (∀ (m : OpcodeMap) (s : State) (f : Fault), s.status = .running → s.memRead s.pc.toNat = .ok 0x82 →
    (s.memRead (s.pc.toNat + 1) = .error f ∨
      (∃ o, s.memRead (s.pc.toNat + 1) = .ok o) ∧ s.memRead (s.pc.toNat + 2) = .error f) →
    stepWith m s = .next (s.enterFault f))

/-- 42_data_io.md R142 (the spec's decisions D11, D19): PRN r. That exec, run directly on an operand above 7, raises
REG_INDEX is the MODEL'S CHOICE (log 10); the check a step makes is in FetchRaisesInOrder. -/
def Obligations.PrnEmitsTheRegister : Prop :=
  (∀ (m : OpcodeMap) (r : Byte), encode m (.prn r) = [0x47, r]) ∧
  (∀ (s : State) (r : RegIdx) (v : Byte), Holds s r v → ∃ t, exec (.prn (regByte r)) s = .next t ∧
    t.output = s.output ++ [v] ∧ t.pc = s.pc + 2 ∧ SameRegsBut [] s t ∧ t.flags = s.flags ∧ SameMemBut [] s t ∧
    SameStatus s t) ∧
  (∀ (s : State) (o : Byte), 7 < o.toNat → Raises (.prn o) s (.regIndex o)) ∧
  (∀ (s : State) (r : RegIdx), Undefined s r → Raises (.prn (regByte r)) s (.uninitReg r))

/-- 41_alu.md R121: ADD a, b, with what it leaves unchanged. -/
def Obligations.AddIsModulo256 : Prop :=
  ∀ (s : State) (a b : RegIdx) (x y : Byte), Holds s a x → Holds s b y →
    ∃ t v, exec (.add (regByte a) (regByte b)) s = .next t ∧ Holds t a v ∧ v.toNat = (x.toNat + y.toNat) % 256 ∧
      t.pc = s.pc + 3 ∧ SameRegsBut [a] s t ∧ t.flags = s.flags ∧ t.output = s.output ∧ SameMemBut [] s t ∧
      SameStatus s t

/-- 41_alu.md R123: MUL a, b, with what it leaves unchanged. -/
def Obligations.MulIsModulo256 : Prop :=
  ∀ (s : State) (a b : RegIdx) (x y : Byte), Holds s a x → Holds s b y →
    ∃ t v, exec (.mul (regByte a) (regByte b)) s = .next t ∧ Holds t a v ∧ v.toNat = (x.toNat * y.toNat) % 256 ∧
      t.pc = s.pc + 3 ∧ SameRegsBut [a] s t ∧ t.flags = s.flags ∧ t.output = s.output ∧ SameMemBut [] s t ∧
      SameStatus s t

/-- 41_alu.md R124 to R126 (the spec's decision D4): CMP a, b sets the flag of the unsigned comparison, leaves the
other two, and clears none. -/
def Obligations.CmpSetsOneFlag : Prop :=
  ∀ (s : State) (a b : RegIdx) (x y : Byte), Holds s a x → Holds s b y →
    ∃ t, exec (.cmp (regByte a) (regByte b)) s = .next t ∧
      (x.toNat = y.toNat → t.flags = { s.flags with e := true }) ∧
      (y.toNat < x.toNat → t.flags = { s.flags with g := true }) ∧
      (x.toNat < y.toNat → t.flags = { s.flags with l := true }) ∧
      t.pc = s.pc + 3 ∧ SameRegsBut [] s t ∧ t.output = s.output ∧ SameMemBut [] s t ∧ SameStatus s t

/-- 41_alu.md R120, R122, R124 (the spec's decisions D11, D14): ADD, MUL and CMP raise for an undefined register a, then
for an undefined register b. That exec, run directly on a first operand above 7, then on a second one, raises REG_INDEX
is the MODEL'S CHOICE (log 10); the check a step makes is in FetchRaisesInOrder. -/
def Obligations.AluRaisesInOrder : Prop :=
  ∀ C : Byte → Byte → Instr, C = Instr.add ∨ C = Instr.mul ∨ C = Instr.cmp →
    (∀ (s : State) (o b : Byte), 7 < o.toNat → Raises (C o b) s (.regIndex o)) ∧
    (∀ (s : State) (a : RegIdx) (o : Byte), 7 < o.toNat → Raises (C (regByte a) o) s (.regIndex o)) ∧
    (∀ (s : State) (a b : RegIdx), Undefined s a → Raises (C (regByte a) (regByte b)) s (.uninitReg a)) ∧
    (∀ (s : State) (a b : RegIdx) (x : Byte), Holds s a x → Undefined s b →
      Raises (C (regByte a) (regByte b)) s (.uninitReg b))

/-- 43_stack.md R150, R151 (the spec's decisions D8, D11, D23): PUSH r. The register is read after the decrement, so
PUSH R7 stores the new SP; with SP = 0 it raises STACK_RANGE, whatever r is; an undefined r raises UNINIT_REG and
leaves SP. That exec, run directly on an operand above 7, raises REG_INDEX is the MODEL'S CHOICE (log 10); the check a
step makes is in FetchRaisesInOrder. -/
def Obligations.PushStoresBelowTheStack : Prop :=
  (∀ (m : OpcodeMap) (r : Byte), encode m (.push r) = [m.push, r]) ∧
  (∀ (s : State) (r : RegIdx) (sp v : Byte), Holds s spIdx sp → sp ≠ 0 → (r ≠ spIdx → Holds s r v) →
    (r = spIdx → v = sp - 1) →
    ∃ t, exec (.push (regByte r)) s = .next t ∧ Holds t spIdx (sp - 1) ∧
      Memory.read? t.mem (pushAddress sp).toNat = some v ∧ (pushAddress sp).toNat + 1 = sp.toNat ∧
      t.pc = s.pc + 2 ∧ SameRegsBut [spIdx] s t ∧ SameMemBut [(pushAddress sp).toNat] s t ∧ t.flags = s.flags ∧
      t.output = s.output ∧ SameStatus s t) ∧
  (∀ (s : State) (o : Byte), 7 < o.toNat → Raises (.push o) s (.regIndex o)) ∧
  (∀ (s : State) (r : RegIdx), Holds s spIdx 0 → Raises (.push (regByte r)) s (.stackRange 0)) ∧
  (∀ (s : State) (r : RegIdx) (sp : Byte), Holds s spIdx sp → sp ≠ 0 → Undefined s r →
    Raises (.push (regByte r)) s (.uninitReg r))

/-- 43_stack.md R152, R153 (the spec's decisions D8, D12, D23): POP r. R7 is read again after the write to r, so POP R7
leaves the popped byte plus 1; the popped cell keeps its value; R7 = 255 at the increment raises STACK_RANGE, after
UNINIT_MEM for an undefined cell. That exec, run directly on an operand above 7, raises REG_INDEX is the MODEL'S CHOICE
(log 10); the check a step makes is in FetchRaisesInOrder. -/
def Obligations.PopLoadsFromTheStack : Prop :=
  (∀ (m : OpcodeMap) (r : Byte), encode m (.pop r) = [m.pop, r]) ∧
  (∀ (s : State) (r : RegIdx) (sp v : Byte), r ≠ spIdx → Holds s spIdx sp → Memory.read? s.mem sp.toNat = some v →
    sp ≠ 255 → ∃ t, exec (.pop (regByte r)) s = .next t ∧ Holds t r v ∧ Holds t spIdx (sp + 1) ∧ t.pc = s.pc + 2 ∧
      SameRegsBut [r, spIdx] s t ∧ SameMemBut [] s t ∧ t.flags = s.flags ∧ t.output = s.output ∧ SameStatus s t) ∧
  (∀ (s : State) (sp v : Byte), Holds s spIdx sp → Memory.read? s.mem sp.toNat = some v → v ≠ 255 →
    ∃ t, exec (.pop (regByte spIdx)) s = .next t ∧ Holds t spIdx (v + 1) ∧ t.pc = s.pc + 2 ∧
      SameRegsBut [spIdx] s t ∧ SameMemBut [] s t ∧ t.flags = s.flags ∧ t.output = s.output ∧ SameStatus s t) ∧
  (∀ (s : State) (o : Byte), 7 < o.toNat → Raises (.pop o) s (.regIndex o)) ∧
  (∀ (s : State) (r : RegIdx) (sp : Byte), Holds s spIdx sp → Memory.read? s.mem sp.toNat = none →
    Raises (.pop (regByte r)) s (.uninitMem sp.toNat)) ∧
  (∀ (s : State) (r : RegIdx) (v : Byte), r ≠ spIdx → Holds s spIdx 255 → Memory.read? s.mem 255 = some v →
    Raises (.pop (regByte r)) s (.stackRange 255)) ∧
  (∀ (s : State) (sp : Byte), Holds s spIdx sp → Memory.read? s.mem sp.toNat = some 255 →
    Raises (.pop (regByte spIdx)) s (.stackRange 255))

/-- 44_control.md R160 (the spec's decisions D8, D9, D11, D23): CALL r. It stores pc + 2 below the stack and jumps to
x[r], read after the decrement, so CALL R7 jumps to the new SP; STACK_RANGE, then RET_ADDR_RANGE, then UNINIT_REG. That
exec, run directly on an operand above 7, raises REG_INDEX is the MODEL'S CHOICE (log 10); the check a step makes is in
FetchRaisesInOrder. -/
def Obligations.CallSavesTheReturnAddress : Prop :=
  (∀ (m : OpcodeMap) (r : Byte), encode m (.call r) = [m.call, r]) ∧
  (∀ (s : State) (r : RegIdx) (sp v : Byte), Holds s spIdx sp → sp ≠ 0 → s.pc.toNat + 2 ≤ 255 →
    (r ≠ spIdx → Holds s r v) → (r = spIdx → v = sp - 1) →
    ∃ t ra, exec (.call (regByte r)) s = .next t ∧ Holds t spIdx (sp - 1) ∧
      Memory.read? t.mem (pushAddress sp).toNat = some ra ∧ ra.toNat = s.pc.toNat + 2 ∧
      (pushAddress sp).toNat + 1 = sp.toNat ∧ t.pc.toNat = v.toNat ∧ SameRegsBut [spIdx] s t ∧
      SameMemBut [(pushAddress sp).toNat] s t ∧ t.flags = s.flags ∧ t.output = s.output ∧ SameStatus s t) ∧
  (∀ (s : State) (o : Byte), 7 < o.toNat → Raises (.call o) s (.regIndex o)) ∧
  (∀ (s : State) (r : RegIdx), Holds s spIdx 0 → Raises (.call (regByte r)) s (.stackRange 0)) ∧
  (∀ (s : State) (r : RegIdx) (sp : Byte), Holds s spIdx sp → sp ≠ 0 → 255 < s.pc.toNat + 2 →
    Raises (.call (regByte r)) s (.retAddrRange (s.pc.toNat + 2))) ∧
  (∀ (s : State) (r : RegIdx) (sp : Byte), Holds s spIdx sp → sp ≠ 0 → s.pc.toNat + 2 ≤ 255 → Undefined s r →
    Raises (.call (regByte r)) s (.uninitReg r))

/-- 44_control.md R162 (the spec's decisions D3, D8, D12): RET. -/
def Obligations.RetTakesThePcFromTheStack : Prop :=
  (∀ m : OpcodeMap, encode m .ret = [m.ret]) ∧
  (∀ (s : State) (sp v : Byte), Holds s spIdx sp → Memory.read? s.mem sp.toNat = some v → sp ≠ 255 →
    ∃ t, exec .ret s = .next t ∧ t.pc.toNat = v.toNat ∧ Holds t spIdx (sp + 1) ∧ SameRegsBut [spIdx] s t ∧
      SameMemBut [] s t ∧ t.flags = s.flags ∧ t.output = s.output ∧ SameStatus s t) ∧
  (∀ (s : State) (sp : Byte), Holds s spIdx sp → Memory.read? s.mem sp.toNat = none →
    Raises .ret s (.uninitMem sp.toNat)) ∧
  (∀ (s : State) (v : Byte), Holds s spIdx 255 → Memory.read? s.mem 255 = some v → Raises .ret s (.stackRange 255))

/-- 44_control.md R164 (the spec's decision D11): JMP r, to any address 0 to 255. That exec, run directly on an operand
above 7, raises REG_INDEX is the MODEL'S CHOICE (log 10); the check a step makes is in FetchRaisesInOrder. -/
def Obligations.JmpGoesToTheRegister : Prop :=
  (∀ (m : OpcodeMap) (r : Byte), encode m (.jmp r) = [m.jmp, r]) ∧
  (∀ (s : State) (r : RegIdx) (v : Byte), Holds s r v → ∃ t, exec (.jmp (regByte r)) s = .next t ∧
    t.pc.toNat = v.toNat ∧ SameRegsBut [] s t ∧ SameMemBut [] s t ∧ t.flags = s.flags ∧ t.output = s.output ∧
    SameStatus s t) ∧
  (∀ (s : State) (o : Byte), 7 < o.toNat → Raises (.jmp o) s (.regIndex o)) ∧
  (∀ (s : State) (r : RegIdx), Undefined s r → Raises (.jmp (regByte r)) s (.uninitReg r))

/-- 44_control.md R167: the JEQ-JNE law, with what both leave unchanged. The register of the one that falls through
may be undefined. -/
def Obligations.JeqJneLaw : Prop :=
  (∀ (s : State) (r : RegIdx) (v : Byte), s.flags.e = true → Holds s r v → ∃ t, exec (.jeq (regByte r)) s = .next t ∧
    t.pc.toNat = v.toNat ∧ SameRegsBut [] s t ∧ SameMemBut [] s t ∧ t.flags = s.flags ∧ t.output = s.output ∧
    SameStatus s t) ∧
  (∀ (s : State) (r : RegIdx), s.flags.e = true → ∃ t, exec (.jne (regByte r)) s = .next t ∧ t.pc = s.pc + 2 ∧
    SameRegsBut [] s t ∧ SameMemBut [] s t ∧ t.flags = s.flags ∧ t.output = s.output ∧ SameStatus s t) ∧
  (∀ (s : State) (r : RegIdx), s.flags.e = false → ∃ t, exec (.jeq (regByte r)) s = .next t ∧ t.pc = s.pc + 2 ∧
    SameRegsBut [] s t ∧ SameMemBut [] s t ∧ t.flags = s.flags ∧ t.output = s.output ∧ SameStatus s t) ∧
  (∀ (s : State) (r : RegIdx) (v : Byte), s.flags.e = false → Holds s r v → ∃ t, exec (.jne (regByte r)) s = .next t ∧
    t.pc.toNat = v.toNat ∧ SameRegsBut [] s t ∧ SameMemBut [] s t ∧ t.flags = s.flags ∧ t.output = s.output ∧
    SameStatus s t)

/-- 44_control.md R166, R168 (the spec's decisions D11, D14): JEQ and JNE raise for an undefined register when they jump.
That exec, run directly on an operand above 7, raises REG_INDEX whether or not the jump is taken is the MODEL'S CHOICE
(log 10); the check a step makes, before it looks at the flag, is in FetchRaisesInOrder. -/
def Obligations.ConditionalJumpsRaise : Prop :=
  (∀ (s : State) (o : Byte), 7 < o.toNat → Raises (.jeq o) s (.regIndex o) ∧ Raises (.jne o) s (.regIndex o)) ∧
  (∀ (s : State) (r : RegIdx), s.flags.e = true → Undefined s r → Raises (.jeq (regByte r)) s (.uninitReg r)) ∧
  (∀ (s : State) (r : RegIdx), s.flags.e = false → Undefined s r → Raises (.jne (regByte r)) s (.uninitReg r))

/-- 44_control.md R170 (the spec's decision D15): HLT. It raises nothing, and nothing but the run status changes. -/
def Obligations.HltHalts : Prop :=
  (∀ m : OpcodeMap, encode m .hlt = [0x01]) ∧
  (∀ s : State, exec .hlt s = .next { s with status := .halted })

/-! ## Laws of two instructions -/

/-- 43_stack.md R154 (which the spec derives from R150 and R152): the PUSH-POP law, neither operand being R7 and
neither instruction faulting. -/
def Obligations.PushPopLaw : Prop :=
  ∀ (s t u : State) (r q : RegIdx), s.Safe → r ≠ spIdx → q ≠ spIdx →
    exec (.push (regByte r)) s = .next t → t.Safe → exec (.pop (regByte q)) t = .next u → u.Safe →
    u.reg q = s.reg r ∧ u.reg spIdx = s.reg spIdx

/-- 44_control.md R161 (which the spec derives from R160 and R162): the CALL-RET law. CALL at c enters a subroutine;
if the RET that ends it finds SP and the byte at SP as CALL left them, pc becomes c + 2 and SP what it was before the
CALL. -/
def Obligations.CallRetLaw : Prop :=
  ∀ (s t u v : State) (r : RegIdx) (sp : Byte), s.Safe → exec (.call (regByte r)) s = .next t → t.Safe →
    Holds t spIdx sp → Holds u spIdx sp → Memory.read? u.mem sp.toNat = Memory.read? t.mem sp.toNat →
    exec .ret u = .next v → v.Safe → v.pc.toNat = s.pc.toNat + 2 ∧ v.reg spIdx = s.reg spIdx

/-! ## What every instruction leaves unchanged -/

/-- 10_state.md R32: each flag resets to 0; only CMP writes flags; only JEQ and JNE read one, and they read only E.
Giving the flags other values before an instruction, with E as it was for JEQ and JNE, changes nothing after it but
the flags, and leaves those values in them unless the instruction is CMP. The host sees the flags in the debug view.
-/
def Obligations.FlagsAreWrittenByCmpAndReadByJeqJne : Prop :=
  State.reset.flags = ⟨false, false, false⟩ ∧
  (∀ (i : Instr) (s t : State), exec i s = .next t → (∀ a b, i ≠ .cmp a b) → t.flags = s.flags) ∧
  (∀ (i : Instr) (s t : State) (f : Flags), ((∃ r, i = .jeq r ∨ i = .jne r) → f.e = s.flags.e) →
    exec i s = .next t → ∃ t', exec i { s with flags := f } = .next t' ∧ { t' with flags := t.flags } = t ∧
      ((∀ a b, i ≠ .cmp a b) → t'.flags = f)) ∧
  (∀ s : State, s.view.flags = s.flags)

/-- 10_state.md R33 (the spec's decision D4): no instruction clears a flag. -/
def Obligations.NoInstructionClearsAFlag : Prop :=
  ∀ (i : Instr) (s t : State), exec i s = .next t →
    (s.flags.e = true → t.flags.e = true) ∧ (s.flags.g = true → t.flags.g = true) ∧ (s.flags.l = true → t.flags.l = true)

/-- 20_memory.md R54: which operations reach memory. Only PUSH and CALL write, one byte, at the address below SP; only
POP and RET read, one byte, at SP: a cell stored before any other instruction, or before POP or RET at another address,
changes nothing after it but memory. The fetch reads no byte but the opcode at pc and the operands after it, and those it
reads. When they raise nothing, PUSH and CALL have defined the cell they write, and POP and RET found theirs defined. -/
def Obligations.WhichOperationsReachMemory : Prop :=
  (∀ (i : Instr) (s t : State), exec i s = .next t →
    ((∀ r, i ≠ .push r ∧ i ≠ .call r) → SameMemBut [] s t) ∧
    SameMemBut [(pushAddress (s.reg spIdx).value).toNat] s t) ∧
  (∀ (i : Instr) (s t : State) (a : Nat) (v : Byte), exec i s = .next t →
    (i = .ret ∨ (∃ r, i = .pop r) → a ≠ (s.reg spIdx).value.toNat) →
    ∃ t', exec i (s.store a v) = .next t' ∧ { t' with mem := t.mem } = t) ∧
  (∀ (m : OpcodeMap) (s : State) (a : Nat) (v : Byte), a < s.pc.toNat ∨ s.pc.toNat + 2 < a →
    (s.store a v).fetchInstr m = s.fetchInstr m) ∧
  (∀ (m : OpcodeMap) (s : State) (i : Instr) (a : Nat) (v : Byte), s.fetchInstr m = .ok i →
    s.pc.toNat + i.length ≤ a → (s.store a v).fetchInstr m = .ok i) ∧
  (∀ (m : OpcodeMap) (s : State) (i : Instr), s.fetchInstr m = .ok i →
    ∀ k (h : k < (encode m i).length), s.memRead (s.pc.toNat + k) = .ok (encode m i)[k]) ∧
  (∀ (i : Instr) (s t : State) (sp : Byte), Holds s spIdx sp → exec i s = .next t → (∀ f, t ≠ s.enterFault f) →
    ((∃ r, i = .push r ∨ i = .call r) → (Memory.read? t.mem (pushAddress sp).toNat).isSome) ∧
    (i = .ret ∨ (∃ r, i = .pop r) → (Memory.read? s.mem sp.toNat).isSome))

/-- 10_state.md R23 (which the spec derives from the instructions), registers written: an instruction changes no
register but those of its row. -/
def Obligations.OtherRegistersAreUnchanged : Prop :=
  ∀ (i : Instr) (s t : State), exec i s = .next t → ∀ j, ¬ writtenRegisters i j → t.reg j = s.reg j

/-- 10_state.md R23 (which the spec derives from the instructions), registers read: writing a register an instruction
does not read, before it, changes nothing after it but that register. -/
def Obligations.UnreadRegistersDoNotMatter : Prop :=
  ∀ (i : Instr) (s t : State) (j : RegIdx) (v : Byte), ¬ readRegisters s.flags.e i j → exec i s = .next t →
    ∃ t', exec i (s.writeReg j v) = .next t' ∧ AgreeBut j t' t

/-- 60_exceptions.md R190: HLT is the only instruction that changes the run status; what else changes it, or the fault
record, is a fault entry. -/
def Obligations.OnlyHltAndFaultsChangeTheStatus : Prop :=
  ∀ (i : Instr) (s t : State), exec i s = .next t →
    SameStatus s t ∨ (i = .hlt ∧ t.status = .halted ∧ t.fault = s.fault) ∨ ∃ f, t = s.enterFault f

/-- 10_state.md R39 (the spec's decision D19): only PRN appends to the output channel, one value at most, and nothing
is ever taken from it. -/
def Obligations.OnlyPrnEmits : Prop :=
  ∀ (i : Instr) (s t : State), exec i s = .next t →
    t.output = s.output ∨ ∃ r v, i = .prn (regByte r) ∧ Holds s r v ∧ t.output = s.output ++ [v]

/-- 10_state.md R24, 20_memory.md R51 (the spec's decisions D11, D12): a defined register or cell stays defined; only
reset makes one undefined. -/
def Obligations.DefinedStaysDefined : Prop :=
  ∀ (m : OpcodeMap) (s t : State), stepWith m s = .next t →
    (∀ j, (s.reg j).defined = true → (t.reg j).defined = true) ∧
    (∀ a, (Memory.read? s.mem a).isSome → (Memory.read? t.mem a).isSome)

/-! ## Faults -/

/-- 60_exceptions.md R182 (the spec's decision D13), the code and the info of each cause, for every value the info can
take in a reachable state (log 9) and every refused length that fits its 9 bits (log 6). -/
def Obligations.FaultCodesAndInfo : Prop :=
  (∀ op : Byte, (Fault.illegalOpcode op).code = 1 ∧ (Fault.illegalOpcode op).info.toNat = op.toNat) ∧
  Fault.aluUnsupported.code = 2 ∧
  (∀ a, a ≤ 256 → (Fault.memRange a).code = 3 ∧ (Fault.memRange a).info.toNat = a) ∧
  (∀ o : Byte, (Fault.regIndex o).code = 4 ∧ (Fault.regIndex o).info.toNat = o.toNat) ∧
  (∀ sp : Byte, (Fault.stackRange sp).code = 5 ∧ (Fault.stackRange sp).info.toNat = sp.toNat) ∧
  (∀ a, a ≤ 256 → (Fault.retAddrRange a).code = 6 ∧ (Fault.retAddrRange a).info.toNat = a) ∧
  (∀ r : RegIdx, (Fault.uninitReg r).code = 7 ∧ (Fault.uninitReg r).info.toNat = r.val) ∧
  (∀ a, a ≤ 256 → (Fault.uninitMem a).code = 8 ∧ (Fault.uninitMem a).info.toNat = a) ∧
  (∀ n, n < 512 → (Fault.loadError n).code = 9 ∧ (Fault.loadError n).info.toNat = n)

/-- 60_exceptions.md R184 (the spec's decision D13): faults are precise. A step of a running core that ends Faulted
has entered one fault: cause and info are its code and info, `fault_pc` is the pc at which the step began, and
registers, flags, pc, memory and output are as before the step. -/
def Obligations.FaultsArePrecise : Prop :=
  ∀ (m : OpcodeMap) (s t : State), s.status = .running → stepWith m s = .next t → t.status = .faulted →
    ∃ f : Fault, t.fault.cause = f.code ∧ t.fault.info = f.info ∧ t.fault.pc = s.pc ∧ t.regs = s.regs ∧
      t.flags = s.flags ∧ t.pc = s.pc ∧ t.mem = s.mem ∧ t.output = s.output

/-- 60_exceptions.md R183 (the spec's decisions D13, D20): a step raises only codes 1 and 3 to 8. -/
def Obligations.StepRaisesOnlyItsCodes : Prop :=
  ∀ (m : OpcodeMap) (s t : State), s.status = .running → stepWith m s = .next t → t.status = .faulted →
    t.fault.cause ∈ ([1, 3, 4, 5, 6, 7, 8] : List (BitVec 4))

/-- No step of the model stops: every state has a next state, fault entries (60_exceptions.md R184) and the statuses
in which no step is taken (log 4) included. -/
def Obligations.EveryStateHasANextState : Prop :=
  ∀ (m : OpcodeMap) (s : State), ∃ t, stepWith m s = .next t

/-! ## Invariants -/

/-- The invariant holds after reset. -/
def Obligations.ResetMeetsTheInvariant : Prop := State.reset.Inv

/-- Every step keeps the invariant, under every opcode map: memory canonical and within 0 to 255, SP defined
(10_state.md R26), pc within 0 to 256 (R28), the fault record 0 until a fault and then a code of R182 (R35). -/
def Obligations.StepKeepsTheInvariant : Prop :=
  ∀ (m : OpcodeMap) (s t : State), s.Inv → stepWith m s = .next t → t.Inv

/-- Every host input keeps the invariant. -/
def Obligations.HostInputsKeepTheInvariant : Prop := ∀ (s : State) (x : HostInput), s.Inv → (s.input x).Inv

/-- 10_state.md R40 (the spec's decisions D11, D12): what an undefined register or cell holds is seen by nobody. Two
states the host reads alike step to states the host reads alike, so the values the model keeps under clear tags (log
1) decide nothing. -/
def Obligations.UndefinedValuesAreNeverSeen : Prop :=
  ∀ (m : OpcodeMap) (s s' t : State), s.view = s'.view → stepWith m s = .next t →
    ∃ t', stepWith m s' = .next t' ∧ t'.view = t.view
end

