-- ==== Sys2Proof/Laws/Decode.lean ====
section
/-! SUPPORT. Small lemmas about the opcode map, operand binding and encoding. -/

namespace Sys2Proof

@[simp] theorem Mnemonic.mem_all (k : Mnemonic) : k ∈ Mnemonic.all := by cases k <;> decide

/-- A mnemonic found for an opcode byte has that byte as its code. -/
theorem OpcodeMap.code_of_mnemonic? {m : OpcodeMap} {op : Byte} {k : Mnemonic} (h : m.mnemonic? op = some k) :
    m.code k = op := by
  simpa using List.find?_some h

/-- No mnemonic is found for a byte that is no value of the map. -/
theorem OpcodeMap.mnemonic?_eq_none {m : OpcodeMap} {op : Byte} :
    m.mnemonic? op = none ↔ ∀ k, m.code k ≠ op := by
  simp [OpcodeMap.mnemonic?, List.find?_eq_none]

/-- The bytes of an instruction begin with the opcode of its mnemonic. -/
theorem encode_head (m : OpcodeMap) (i : Instr) : (encode m i).head? = some (m.code i.mnemonic) := by
  cases i <;> rfl

@[simp] theorem Mnemonic.bindOperands_mnemonic (k : Mnemonic) (o1 o2 : Byte) : (k.bindOperands o1 o2).mnemonic = k := by
  cases k <;> rfl

/-- An instruction with no bad register operand is well formed. -/
theorem Instr.badRegister?_eq_none {i : Instr} : i.badRegister? = none ↔ i.WellFormed := by
  simp [Instr.badRegister?, Instr.WellFormed, List.find?_eq_none]

end Sys2Proof
end

