-- ==== Sys2Proof/Laws/Memory.lean ====
section
/-! SUPPORT. The laws of memory: what a read after a write gives, and that every operation keeps the canonical form. -/

namespace Sys2Proof.Machine

@[simp] theorem Memory.read?_write_same (m : Memory) (a : Nat) (v : Byte) :
    Memory.read? (Memory.write m a v) a = some v := by
  induction m with
  | nil => simp [Memory.write, Memory.read?]
  | cons c m ih =>
    obtain ⟨k, w⟩ := c
    unfold Memory.write
    split
    · simp [Memory.read?]
    · split
      · simp [Memory.read?]
      · next h₁ h₂ => simp [Memory.read?, Ne.symm h₂, ih]

@[simp] theorem Memory.read?_write_other (m : Memory) {a b : Nat} (v : Byte) (h : b ≠ a) :
    Memory.read? (Memory.write m a v) b = Memory.read? m b := by
  induction m with
  | nil => simp [Memory.write, Memory.read?, h.symm]
  | cons c m ih =>
    obtain ⟨k, w⟩ := c
    unfold Memory.write
    split
    · simp [Memory.read?, h.symm]
    · split
      · next h₁ h₂ => subst h₂; simp [Memory.read?, h.symm]
      · simp [Memory.read?, ih]

/-- The cells of a written memory are the old ones and the written one. -/
theorem Memory.mem_write {m : Memory} {a : Nat} {v : Byte} {c : Host.Cell} (h : c ∈ Memory.write m a v) :
    c = (a, v) ∨ c ∈ m := by
  induction m with
  | nil => simpa [Memory.write] using h
  | cons d m ih =>
    obtain ⟨k, w⟩ := d
    unfold Memory.write at h
    split at h
    · simpa using h
    · split at h
      · rcases List.mem_cons.mp h with h | h
        · exact .inl h
        · exact .inr (List.mem_cons_of_mem _ h)
      · rcases List.mem_cons.mp h with h | h
        · exact .inr (h ▸ List.mem_cons_self)
        · exact (ih h).imp id (List.mem_cons_of_mem _)

/-- A write within the address space keeps the canonical form. -/
theorem Memory.wf_write {m : Memory} {a : Nat} {v : Byte} (hm : Memory.wf m) (ha : a < 256) :
    Memory.wf (Memory.write m a v) := by
  refine ⟨?_, fun c hc => ?_⟩
  · have hs := hm.1
    clear hm
    induction m with
    | nil => simp [Memory.write]
    | cons d m ih =>
      obtain ⟨k, w⟩ := d
      obtain ⟨hk, hr⟩ := List.pairwise_cons.mp hs
      unfold Memory.write
      split
      · next h =>
        refine List.pairwise_cons.mpr ⟨fun c hc => ?_, List.pairwise_cons.mpr ⟨hk, hr⟩⟩
        rcases List.mem_cons.mp hc with rfl | hc
        · exact h
        · exact h.trans (hk c hc)
      · split
        · next h => subst h; exact List.pairwise_cons.mpr ⟨hk, hr⟩
        · next h₁ h₂ =>
          refine List.pairwise_cons.mpr ⟨fun c hc => ?_, ih hr⟩
          rcases Memory.mem_write hc with rfl | hc
          · simp only; omega
          · exact hk c hc
  · rcases Memory.mem_write hc with rfl | hc
    · exact ha
    · exact hm.2 c hc

theorem Memory.wf_nil : Memory.wf [] := by simp [Memory.wf]

/-- Loading an image that fits keeps the canonical form. -/
theorem Memory.wf_loadAt {m : Memory} {a : Nat} {bs : List Byte} (hm : Memory.wf m) (h : a + bs.length ≤ 256) :
    Memory.wf (Memory.loadAt m a bs) := by
  induction bs generalizing m a with
  | nil => exact hm
  | cons b bs ih =>
    simp only [List.length_cons] at h
    exact ih (Memory.wf_write hm (by omega)) (by omega)

/-- Placing bytes keeps the canonical form. -/
theorem Memory.wf_place {m : Memory} {a : Nat} {bs : List Byte} (hm : Memory.wf m) :
    Memory.wf (Memory.place m a bs) := by
  induction bs generalizing m a with
  | nil => exact hm
  | cons b bs ih =>
    unfold Memory.place
    split
    · next h => exact ih (Memory.wf_write hm h)
    · exact ih hm

end Sys2Proof.Machine
end

