-- ==== Sys2Proof/Laws/State.lean ====
section
/-! SUPPORT. One lemma per field and update of State, so that no proof unfolds a record update. -/

namespace Sys2Proof.Machine

/-! ## writeReg -/

theorem State.reg_writeReg (s : State) (i j : RegIdx) (v : Byte) :
    (s.writeReg i v).reg j = if j = i then { value := v, defined := true } else s.reg j := by
  unfold State.reg State.writeReg
  simp only [Fin.getElem_fin, Vector.getElem_set, ← Fin.ext_iff, eq_comm]

@[simp] theorem State.reg_writeReg_same (s : State) (i : RegIdx) (v : Byte) :
    (s.writeReg i v).reg i = { value := v, defined := true } := by simp [State.reg_writeReg]

@[simp] theorem State.reg_writeReg_other (s : State) {i j : RegIdx} (v : Byte) (h : j ≠ i) :
    (s.writeReg i v).reg j = s.reg j := by simp [State.reg_writeReg, h]

@[simp] theorem State.writeReg_pc (s : State) (i : RegIdx) (v : Byte) : (s.writeReg i v).pc = s.pc := rfl
@[simp] theorem State.writeReg_flags (s : State) (i : RegIdx) (v : Byte) : (s.writeReg i v).flags = s.flags := rfl
@[simp] theorem State.writeReg_status (s : State) (i : RegIdx) (v : Byte) : (s.writeReg i v).status = s.status := rfl
@[simp] theorem State.writeReg_fault (s : State) (i : RegIdx) (v : Byte) : (s.writeReg i v).fault = s.fault := rfl
@[simp] theorem State.writeReg_output (s : State) (i : RegIdx) (v : Byte) : (s.writeReg i v).output = s.output := rfl
@[simp] theorem State.writeReg_mem (s : State) (i : RegIdx) (v : Byte) : (s.writeReg i v).mem = s.mem := rfl

/-! ## emit -/

@[simp] theorem State.emit_reg (s : State) (v : Byte) (j : RegIdx) : (s.emit v).reg j = s.reg j := rfl
@[simp] theorem State.emit_pc (s : State) (v : Byte) : (s.emit v).pc = s.pc := rfl
@[simp] theorem State.emit_flags (s : State) (v : Byte) : (s.emit v).flags = s.flags := rfl
@[simp] theorem State.emit_status (s : State) (v : Byte) : (s.emit v).status = s.status := rfl
@[simp] theorem State.emit_fault (s : State) (v : Byte) : (s.emit v).fault = s.fault := rfl
@[simp] theorem State.emit_output (s : State) (v : Byte) : (s.emit v).output = s.output ++ [v] := rfl
@[simp] theorem State.emit_mem (s : State) (v : Byte) : (s.emit v).mem = s.mem := rfl

/-! ## advance -/

@[simp] theorem State.advance_reg (s : State) (n : Nat) (j : RegIdx) : (s.advance n).reg j = s.reg j := rfl
@[simp] theorem State.advance_pc (s : State) (n : Nat) : (s.advance n).pc = s.pc + BitVec.ofNat 9 n := rfl
@[simp] theorem State.advance_flags (s : State) (n : Nat) : (s.advance n).flags = s.flags := rfl
@[simp] theorem State.advance_status (s : State) (n : Nat) : (s.advance n).status = s.status := rfl
@[simp] theorem State.advance_fault (s : State) (n : Nat) : (s.advance n).fault = s.fault := rfl
@[simp] theorem State.advance_output (s : State) (n : Nat) : (s.advance n).output = s.output := rfl
@[simp] theorem State.advance_mem (s : State) (n : Nat) : (s.advance n).mem = s.mem := rfl

/-! ## jump -/

@[simp] theorem State.jump_reg (s : State) (t : Byte) (j : RegIdx) : (s.jump t).reg j = s.reg j := rfl
@[simp] theorem State.jump_pc (s : State) (t : Byte) : (s.jump t).pc = t.setWidth 9 := rfl
@[simp] theorem State.jump_flags (s : State) (t : Byte) : (s.jump t).flags = s.flags := rfl
@[simp] theorem State.jump_status (s : State) (t : Byte) : (s.jump t).status = s.status := rfl
@[simp] theorem State.jump_fault (s : State) (t : Byte) : (s.jump t).fault = s.fault := rfl
@[simp] theorem State.jump_output (s : State) (t : Byte) : (s.jump t).output = s.output := rfl
@[simp] theorem State.jump_mem (s : State) (t : Byte) : (s.jump t).mem = s.mem := rfl

/-! ## halt -/

@[simp] theorem State.halt_reg (s : State) (j : RegIdx) : s.halt.reg j = s.reg j := rfl
@[simp] theorem State.halt_pc (s : State) : s.halt.pc = s.pc := rfl
@[simp] theorem State.halt_flags (s : State) : s.halt.flags = s.flags := rfl
@[simp] theorem State.halt_status (s : State) : s.halt.status = .halted := rfl
@[simp] theorem State.halt_fault (s : State) : s.halt.fault = s.fault := rfl
@[simp] theorem State.halt_output (s : State) : s.halt.output = s.output := rfl
@[simp] theorem State.halt_mem (s : State) : s.halt.mem = s.mem := rfl

/-! ## setFlags -/

@[simp] theorem State.setFlags_reg (s : State) (f : Flags) (j : RegIdx) : (s.setFlags f).reg j = s.reg j := rfl
@[simp] theorem State.setFlags_pc (s : State) (f : Flags) : (s.setFlags f).pc = s.pc := rfl
@[simp] theorem State.setFlags_flags (s : State) (f : Flags) : (s.setFlags f).flags = f := rfl
@[simp] theorem State.setFlags_status (s : State) (f : Flags) : (s.setFlags f).status = s.status := rfl
@[simp] theorem State.setFlags_fault (s : State) (f : Flags) : (s.setFlags f).fault = s.fault := rfl
@[simp] theorem State.setFlags_output (s : State) (f : Flags) : (s.setFlags f).output = s.output := rfl
@[simp] theorem State.setFlags_mem (s : State) (f : Flags) : (s.setFlags f).mem = s.mem := rfl

/-! ## store -/

@[simp] theorem State.store_reg (s : State) (a : Nat) (v : Byte) (j : RegIdx) : (s.store a v).reg j = s.reg j := rfl
@[simp] theorem State.store_pc (s : State) (a : Nat) (v : Byte) : (s.store a v).pc = s.pc := rfl
@[simp] theorem State.store_flags (s : State) (a : Nat) (v : Byte) : (s.store a v).flags = s.flags := rfl
@[simp] theorem State.store_status (s : State) (a : Nat) (v : Byte) : (s.store a v).status = s.status := rfl
@[simp] theorem State.store_fault (s : State) (a : Nat) (v : Byte) : (s.store a v).fault = s.fault := rfl
@[simp] theorem State.store_output (s : State) (a : Nat) (v : Byte) : (s.store a v).output = s.output := rfl
@[simp] theorem State.store_mem (s : State) (a : Nat) (v : Byte) : (s.store a v).mem = Memory.write s.mem a v := rfl

/-! ## enterFault -/

@[simp] theorem State.enterFault_reg (s : State) (f : Fault) (j : RegIdx) : (s.enterFault f).reg j = s.reg j := rfl
@[simp] theorem State.enterFault_regs (s : State) (f : Fault) : (s.enterFault f).regs = s.regs := rfl
@[simp] theorem State.enterFault_pc (s : State) (f : Fault) : (s.enterFault f).pc = s.pc := rfl
@[simp] theorem State.enterFault_flags (s : State) (f : Fault) : (s.enterFault f).flags = s.flags := rfl
@[simp] theorem State.enterFault_status (s : State) (f : Fault) : (s.enterFault f).status = .faulted := rfl
@[simp] theorem State.enterFault_fault (s : State) (f : Fault) :
    (s.enterFault f).fault = { cause := f.code, pc := s.pc, info := f.info } := rfl
@[simp] theorem State.enterFault_output (s : State) (f : Fault) : (s.enterFault f).output = s.output := rfl
@[simp] theorem State.enterFault_mem (s : State) (f : Fault) : (s.enterFault f).mem = s.mem := rfl

/-! ## commit -/

@[simp] theorem commit_ok (s s' : State) : commit s (.ok s') = .next s' := rfl
@[simp] theorem commit_error (s : State) (f : Fault) : commit s (.error f) = .next (s.enterFault f) := rfl

/-- Everything a commit can do: the body finished and its state is the next one, or it raised and the fault is
entered. -/
theorem commit_cases {s t : State} {body : Except Fault State} (h : commit s body = .next t) :
    body = .ok t ∨ ∃ f, body = .error f ∧ t = s.enterFault f := by
  cases body with
  | ok s' => exact .inl (by simpa using h)
  | error f => exact .inr ⟨f, rfl, by simpa using h.symm⟩

end Sys2Proof.Machine
end

