-- ==== Sys2Proof/Laws/Ops.lean ====
section
/-! SUPPORT. One lemma per shared operation that says everything it can do: what it answers when it finishes, and
what it raises. -/

namespace Sys2Proof.Machine

/-! ## Sequencing -/

@[simp] theorem ok_bind {α β : Type} (a : α) (f : α → Except Fault β) : ((Except.ok a : Except Fault α) >>= f) = f a := rfl
@[simp] theorem error_bind {α β : Type} (e : Fault) (f : α → Except Fault β) :
    ((Except.error e : Except Fault α) >>= f) = .error e := rfl

/-- A sequence finishes when both its parts do. -/
theorem bind_eq_ok {α β : Type} {x : Except Fault α} {f : α → Except Fault β} {b : β} :
    (x >>= f) = .ok b ↔ ∃ a, x = .ok a ∧ f a = .ok b := by
  cases x <;> simp

/-! ## Registers -/

theorem State.readReg_of_defined {s : State} {i : RegIdx} {v : Byte} (h : s.reg i = { value := v, defined := true }) :
    s.readReg i = .ok v := by simp [State.readReg, h]

theorem State.readReg_of_undefined {s : State} {i : RegIdx} (h : (s.reg i).defined = false) :
    s.readReg i = .error (.uninitReg i) := by simp [State.readReg, h]

theorem State.readReg_ok_iff {s : State} {i : RegIdx} {v : Byte} :
    s.readReg i = .ok v ↔ s.reg i = { value := v, defined := true } := by
  unfold State.readReg
  rcases h : s.reg i with ⟨w, d⟩
  cases d <;> simp

@[simp] theorem State.readReg_writeReg_same (s : State) (i : RegIdx) (v : Byte) : (s.writeReg i v).readReg i = .ok v := by
  simp [State.readReg]

@[simp] theorem State.readReg_writeReg_other (s : State) {i j : RegIdx} (v : Byte) (h : j ≠ i) :
    (s.writeReg i v).readReg j = s.readReg j := by simp [State.readReg, h]

/-! ## Memory -/

theorem State.memRead_ok_iff {s : State} {a : Nat} {v : Byte} :
    s.memRead a = .ok v ↔ a ≤ 255 ∧ Memory.read? s.mem a = some v := by
  unfold State.memRead
  split
  · next h => simp; omega
  · next h =>
    split
    · next h' => simp [h']
    · next w h' => simp [h']; omega

theorem State.memRead_byte {s : State} {a : Byte} {v : Byte} (h : Memory.read? s.mem a.toNat = some v) :
    s.memRead a.toNat = .ok v := State.memRead_ok_iff.mpr ⟨by have := a.isLt; omega, h⟩

theorem State.memRead_byte_undefined {s : State} {a : Byte} (h : Memory.read? s.mem a.toNat = none) :
    s.memRead a.toNat = .error (.uninitMem a.toNat) := by
  have := a.isLt
  unfold State.memRead
  rw [if_neg (by omega), h]

theorem State.memWrite_byte (s : State) (a v : Byte) :
    s.memWrite a.toNat v = .ok (s.store a.toNat v) := by
  have := a.isLt
  unfold State.memWrite
  rw [if_neg (by omega)]

/-! ## The stack pointer -/

theorem State.spForPush_ok_iff {s : State} {sp : Byte} :
    s.spForPush = .ok sp ↔ s.reg spIdx = { value := sp, defined := true } ∧ sp ≠ 0 := by
  unfold State.spForPush
  simp only [bind_eq_ok, State.readReg_ok_iff]
  constructor
  · rintro ⟨w, hw, h⟩
    split at h
    · cases h
    · next h' => cases h; exact ⟨hw, h'⟩
  · rintro ⟨hw, h⟩
    exact ⟨sp, hw, by rw [if_neg h]⟩

theorem State.spForPush_zero {s : State} (h : s.reg spIdx = { value := 0, defined := true }) :
    s.spForPush = .error (.stackRange 0) := by
  simp [State.spForPush, State.readReg_of_defined h]

theorem State.spAfterPop_ok_iff {s : State} {sp' : Byte} :
    s.spAfterPop = .ok sp' ↔ ∃ sp, s.reg spIdx = { value := sp, defined := true } ∧ sp ≠ 255 ∧ sp' = sp + 1 := by
  unfold State.spAfterPop
  simp only [bind_eq_ok, State.readReg_ok_iff]
  constructor
  · rintro ⟨w, hw, h⟩
    split at h
    · cases h
    · next h' => cases h; exact ⟨w, hw, h', rfl⟩
  · rintro ⟨sp, hw, h, rfl⟩
    exact ⟨sp, hw, by rw [if_neg h]⟩

theorem State.spAfterPop_top {s : State} (h : s.reg spIdx = { value := 255, defined := true }) :
    s.spAfterPop = .error (.stackRange 255) := by
  simp [State.spAfterPop, State.readReg_of_defined h]

/-! ## Operands -/

theorem regByte_toNat (i : RegIdx) : (regByte i).toNat = i.val := by
  have := i.isLt
  simp only [regByte, BitVec.toNat_ofNat]
  omega

@[simp] theorem regOperand_regByte (i : RegIdx) : regOperand (regByte i) = .ok i := by
  have h := regByte_toNat i
  have h' : namesRegister (regByte i) := by unfold namesRegister; rw [h]; exact i.isLt
  unfold regOperand
  rw [dif_pos h']
  exact congrArg _ (Fin.ext h)

theorem regOperand_bad {o : Byte} (h : 8 ≤ o.toNat) : regOperand o = .error (.regIndex o) := by
  unfold regOperand
  rw [dif_neg (by unfold namesRegister; omega)]

theorem regOperand_ok_iff {o : Byte} {i : RegIdx} : regOperand o = .ok i ↔ o = regByte i := by
  constructor
  · intro h
    unfold regOperand at h
    split at h
    · cases h
      apply BitVec.eq_of_toNat_eq
      rw [regByte_toNat]
    · cases h
  · rintro rfl
    exact regOperand_regByte i

theorem regOperands_ok_iff {a b : Byte} {p : RegIdx × RegIdx} :
    regOperands a b = .ok p ↔ a = regByte p.1 ∧ b = regByte p.2 := by
  unfold regOperands
  simp only [bind_eq_ok, regOperand_ok_iff]
  constructor
  · rintro ⟨i, rfl, j, rfl, h⟩
    cases h
    exact ⟨rfl, rfl⟩
  · rintro ⟨rfl, rfl⟩
    exact ⟨_, rfl, _, rfl, rfl⟩

/-! ## The bodies: everything a finished body did -/

theorem aluBody_ok_iff {op : Byte → Byte → Byte} {a b : Byte} {s t : State} :
    aluBody op a b s = .ok t ↔ ∃ i j x y, a = regByte i ∧ b = regByte j ∧ s.reg i = { value := x, defined := true } ∧
      s.reg j = { value := y, defined := true } ∧ t = (s.writeReg i (op x y)).advance 3 := by
  unfold aluBody
  simp only [bind_eq_ok, regOperands_ok_iff, State.readReg_ok_iff]
  constructor
  · rintro ⟨⟨i, j⟩, ⟨rfl, rfl⟩, x, hx, y, hy, h⟩
    cases h
    exact ⟨i, j, x, y, rfl, rfl, hx, hy, rfl⟩
  · rintro ⟨i, j, x, y, rfl, rfl, hx, hy, rfl⟩
    exact ⟨(i, j), ⟨rfl, rfl⟩, x, hx, y, hy, rfl⟩

theorem cmpBody_ok_iff {a b : Byte} {s t : State} :
    cmpBody a b s = .ok t ↔ ∃ i j x y, a = regByte i ∧ b = regByte j ∧ s.reg i = { value := x, defined := true } ∧
      s.reg j = { value := y, defined := true } ∧
      t = (s.setFlags (flagsAfterCmp cmpPolicy x y s.flags)).advance 3 := by
  unfold cmpBody
  simp only [bind_eq_ok, regOperands_ok_iff, State.readReg_ok_iff]
  constructor
  · rintro ⟨⟨i, j⟩, ⟨rfl, rfl⟩, x, hx, y, hy, h⟩
    cases h
    exact ⟨i, j, x, y, rfl, rfl, hx, hy, rfl⟩
  · rintro ⟨i, j, x, y, rfl, rfl, hx, hy, rfl⟩
    exact ⟨(i, j), ⟨rfl, rfl⟩, x, hx, y, hy, rfl⟩

theorem ldiBody_ok_iff {r imm : Byte} {s t : State} :
    ldiBody r imm s = .ok t ↔ ∃ i, r = regByte i ∧ t = (s.writeReg i imm).advance 3 := by
  unfold ldiBody
  simp only [bind_eq_ok, regOperand_ok_iff, immOperand, Except.ok.injEq, eq_comm (a := t)]

theorem prnBody_ok_iff {r : Byte} {s t : State} :
    prnBody r s = .ok t ↔ ∃ i v, r = regByte i ∧ s.reg i = { value := v, defined := true } ∧ t = (s.emit v).advance 2 := by
  unfold prnBody
  simp only [bind_eq_ok, regOperand_ok_iff, State.readReg_ok_iff, Except.ok.injEq, eq_comm (a := t)]
  constructor
  · rintro ⟨i, rfl, v, hv, h⟩
    exact ⟨i, v, rfl, hv, h⟩
  · rintro ⟨i, v, rfl, hv, h⟩
    exact ⟨i, rfl, v, hv, h⟩

theorem pushBody_ok_iff {r : Byte} {s t : State} :
    pushBody r s = .ok t ↔ ∃ i sp v, r = regByte i ∧ s.reg spIdx = { value := sp, defined := true } ∧ sp ≠ 0 ∧
      (s.writeReg spIdx (pushAddress sp)).reg i = { value := v, defined := true } ∧
      t = ((s.writeReg spIdx (pushAddress sp)).store (pushAddress sp).toNat v).advance 2 := by
  unfold pushBody
  simp only [bind_eq_ok, regOperand_ok_iff, State.spForPush_ok_iff, State.readReg_ok_iff, State.memWrite_byte]
  constructor
  · rintro ⟨i, rfl, sp, ⟨hsp, h0⟩, v, hv, u, hu, h⟩
    cases hu
    cases h
    exact ⟨i, sp, v, rfl, hsp, h0, hv, rfl⟩
  · rintro ⟨i, sp, v, rfl, hsp, h0, hv, rfl⟩
    exact ⟨i, rfl, sp, ⟨hsp, h0⟩, v, hv, _, rfl, rfl⟩

theorem popBody_ok_iff {r : Byte} {s t : State} :
    popBody r s = .ok t ↔ ∃ i sp v sp₁, r = regByte i ∧ s.reg spIdx = { value := sp, defined := true } ∧
      Memory.read? s.mem sp.toNat = some v ∧ (s.writeReg i v).reg spIdx = { value := sp₁, defined := true } ∧
      sp₁ ≠ 255 ∧ t = ((s.writeReg i v).writeReg spIdx (sp₁ + 1)).advance 2 := by
  unfold popBody
  simp only [bind_eq_ok, regOperand_ok_iff, State.spAfterPop_ok_iff, State.readReg_ok_iff, State.memRead_ok_iff]
  constructor
  · rintro ⟨i, rfl, sp, hsp, v, ⟨-, hv⟩, sp', ⟨sp₁, h₁, h255, rfl⟩, h⟩
    cases h
    exact ⟨i, sp, v, sp₁, rfl, hsp, hv, h₁, h255, rfl⟩
  · rintro ⟨i, sp, v, sp₁, rfl, hsp, hv, h₁, h255, rfl⟩
    exact ⟨i, rfl, sp, hsp, v, ⟨by have := sp.isLt; omega, hv⟩, sp₁ + 1, ⟨sp₁, h₁, h255, rfl⟩, rfl⟩

theorem callBody_ok_iff {r : Byte} {s t : State} :
    callBody r s = .ok t ↔ ∃ i sp v, r = regByte i ∧ s.reg spIdx = { value := sp, defined := true } ∧ sp ≠ 0 ∧
      returnAddress s ≤ 255 ∧ (s.writeReg spIdx (pushAddress sp)).reg i = { value := v, defined := true } ∧
      t = ((s.writeReg spIdx (pushAddress sp)).store (pushAddress sp).toNat
        (BitVec.ofNat 8 (returnAddress s))).jump v := by
  unfold callBody
  simp only [bind_eq_ok, regOperand_ok_iff, State.spForPush_ok_iff]
  constructor
  · rintro ⟨i, rfl, sp, ⟨hsp, h0⟩, h⟩
    split at h
    · cases h
    · next hra =>
      simp only [bind_eq_ok, State.memWrite_byte, State.readReg_ok_iff] at h
      obtain ⟨u, hu, v, hv, h⟩ := h
      cases hu
      cases h
      exact ⟨i, sp, v, rfl, hsp, h0, by omega, hv, rfl⟩
  · rintro ⟨i, sp, v, rfl, hsp, h0, hra, hv, rfl⟩
    refine ⟨i, rfl, sp, ⟨hsp, h0⟩, ?_⟩
    rw [if_neg (by omega)]
    simp only [bind_eq_ok, State.memWrite_byte, State.readReg_ok_iff]
    exact ⟨_, rfl, v, hv, rfl⟩

theorem retBody_ok_iff {s t : State} :
    retBody s = .ok t ↔ ∃ sp v, s.reg spIdx = { value := sp, defined := true } ∧
      Memory.read? s.mem sp.toNat = some v ∧ sp ≠ 255 ∧ t = (s.writeReg spIdx (sp + 1)).jump v := by
  unfold retBody
  simp only [bind_eq_ok, State.spAfterPop_ok_iff, State.readReg_ok_iff, State.memRead_ok_iff]
  constructor
  · rintro ⟨sp, hsp, v, ⟨-, hv⟩, sp', ⟨sp₁, h₁, h255, rfl⟩, h⟩
    rw [hsp] at h₁
    cases h₁
    cases h
    exact ⟨sp, v, hsp, hv, h255, rfl⟩
  · rintro ⟨sp, v, hsp, hv, h255, rfl⟩
    exact ⟨sp, hsp, v, ⟨by have := sp.isLt; omega, hv⟩, sp + 1, ⟨sp, hsp, h255, rfl⟩, rfl⟩

theorem jumpIfBody_ok_iff {taken : Bool} {r : Byte} {s t : State} :
    jumpIfBody taken r s = .ok t ↔ ∃ i, r = regByte i ∧
      ((taken = true ∧ ∃ v, s.reg i = { value := v, defined := true } ∧ t = s.jump v) ∨
       (taken = false ∧ t = s.advance 2)) := by
  unfold jumpIfBody
  simp only [bind_eq_ok, regOperand_ok_iff]
  constructor
  · rintro ⟨i, rfl, h⟩
    cases taken
    · cases h
      exact ⟨i, rfl, .inr ⟨rfl, rfl⟩⟩
    · simp only [if_true, bind_eq_ok, State.readReg_ok_iff] at h
      obtain ⟨v, hv, h⟩ := h
      cases h
      exact ⟨i, rfl, .inl ⟨rfl, v, hv, rfl⟩⟩
  · rintro ⟨i, rfl, ⟨rfl, v, hv, rfl⟩ | ⟨rfl, rfl⟩⟩
    · refine ⟨i, rfl, ?_⟩
      simp only [if_true, bind_eq_ok, State.readReg_ok_iff]
      exact ⟨v, hv, rfl⟩
    · exact ⟨i, rfl, rfl⟩

/-! ## exec: the body of each instruction -/

/-- The body of an instruction's meaning. -/
def instrBody (i : Instr) (s : State) : Except Fault State :=
  match i with
  | .hlt => .ok s.halt
  | .ldi r imm => ldiBody r imm s
  | .prn r => prnBody r s
  | .mul a b => aluBody aluMul a b s
  | .cmp a b => cmpBody a b s
  | .push r => pushBody r s
  | .pop r => popBody r s
  | .call r => callBody r s
  | .ret => retBody s
  | .jmp r => jumpIfBody true r s
  | .jeq r => jumpIfBody s.flags.e r s
  | .jne r => jumpIfBody (!s.flags.e) r s
  | .add a b => aluBody aluAdd a b s

/-- Executing an instruction commits its body. -/
theorem exec_eq_commit (i : Instr) (s : State) : exec i s = commit s (instrBody i s) := by
  cases i <;> rfl

/-- Everything an execution can do: its body finished, or a fault is entered. -/
theorem exec_cases {i : Instr} {s t : State} (h : exec i s = .next t) :
    instrBody i s = .ok t ∨ ∃ f, instrBody i s = .error f ∧ t = s.enterFault f :=
  commit_cases (exec_eq_commit i s ▸ h)

end Sys2Proof.Machine
end

