-- ==== Sys2Proof/Laws/PerInstr.lean ====
section
/-! SUPPORT. Statements proved once per instruction. Family EncodeLength: an instruction has as many bytes as its
format gives it (30_encoding.md R71, R72). -/

namespace Sys2Proof.Laws.EncodeLength

/-- The encoding has the length of the instruction, under every opcode map. -/
def Statement (i : Instr) : Prop := ∀ m : OpcodeMap, (encode m i).length = i.length

theorem hlt : Statement .hlt := fun _ => rfl
theorem ldi (r imm : Byte) : Statement (.ldi r imm) := fun _ => rfl
theorem prn (r : Byte) : Statement (.prn r) := fun _ => rfl
theorem mul (a b : Byte) : Statement (.mul a b) := fun _ => rfl
theorem cmp (a b : Byte) : Statement (.cmp a b) := fun _ => rfl
theorem push (r : Byte) : Statement (.push r) := fun _ => rfl
theorem pop (r : Byte) : Statement (.pop r) := fun _ => rfl
theorem call (r : Byte) : Statement (.call r) := fun _ => rfl
theorem ret : Statement .ret := fun _ => rfl
theorem jmp (r : Byte) : Statement (.jmp r) := fun _ => rfl
theorem jeq (r : Byte) : Statement (.jeq r) := fun _ => rfl
theorem jne (r : Byte) : Statement (.jne r) := fun _ => rfl
theorem add (a b : Byte) : Statement (.add a b) := fun _ => rfl

end Sys2Proof.Laws.EncodeLength
end

