-- ==== Sys2Proof/Laws/Step.lean ====
section
/-! SUPPORT. The two ways a step of a running core goes, so that no proof unfolds stepWith. -/

namespace Sys2Proof.Machine

/-- A running core whose fetch gives an instruction executes it. -/
theorem stepWith_of_fetch_ok {m : OpcodeMap} {s : State} {i : Instr} (hr : s.status = .running)
    (hf : s.fetchInstr m = .ok i) : stepWith m s = exec i s := by
  simp only [stepWith, hr, hf]

/-- A running core whose fetch raises enters the fault. -/
theorem stepWith_of_fetch_error {m : OpcodeMap} {s : State} {f : Fault} (hr : s.status = .running)
    (hf : s.fetchInstr m = .error f) : stepWith m s = .next (s.enterFault f) := by
  simp only [stepWith, hr, hf]

/-- Everything a step of a running core can do: execute the fetched instruction, or enter the fault of the fetch. -/
theorem stepWith_running_cases {m : OpcodeMap} {s t : State} (hr : s.status = .running) (h : stepWith m s = .next t) :
    (∃ i, s.fetchInstr m = .ok i ∧ exec i s = .next t) ∨ ∃ f, s.fetchInstr m = .error f ∧ t = s.enterFault f := by
  cases hf : s.fetchInstr m with
  | ok i => exact .inl ⟨i, rfl, stepWith_of_fetch_ok hr hf ▸ h⟩
  | error f =>
    rw [stepWith_of_fetch_error hr hf] at h
    cases h
    exact .inr ⟨f, rfl, rfl⟩

/-- The state `withFetchWord` builds is running. -/
@[simp] theorem State.withFetchWord_status (s : State) (nbits w : Nat) : (s.withFetchWord nbits w).status = .running := rfl

/-- `withFetchWord` keeps the canonical form of memory. -/
theorem State.withFetchWord_wf {s : State} (nbits w : Nat) (h : Memory.wf s.mem) :
    Memory.wf (s.withFetchWord nbits w).mem := Memory.wf_place h

end Sys2Proof.Machine
end

