-- ==== Sys2Proof/Tests/Slice0.lean ====
section
/-! SUPPORT. Tests. Expected results are those of spec/95_test_vectors.md (the vector's id stands beside each test) or
of the spec's encoding tables. The witnesses at the end meet the hypotheses of the statements for the provers. -/

namespace Sys2Proof.Tests

open Sys2Proof Sys2Proof.Machine Sys2Proof.Certificates

/-! ## Helpers -/

/-- A running core with the given registers set and cells stored, on top of the reset state. -/
def mk (pc : PcWord) (regs : List (RegIdx × Byte)) (cells : List Host.Cell) (flags : Flags := ⟨false, false, false⟩) :
    State :=
  let s := regs.foldl (fun s r => s.writeReg r.1 r.2) State.reset
  { cells.foldl (fun s c => s.store c.1 c.2) s with pc := pc, flags := flags, status := .running }

/-- A field of the next state of a step. -/
def after {α : Type} (o : Host.Outcome State Fault Refusal) (f : State → α) : Option α :=
  match o with
  | .next t => some (f t)
  | .fault _ => none
  | .refused _ => none

/-- The fault record of a step that ends Faulted, as cause, pc and info. -/
def raised (o : Host.Outcome State Fault Refusal) : Option (Nat × Nat × Nat) :=
  (after o fun t => if t.status = .faulted then some (t.fault.cause.toNat, t.fault.pc.toNat, t.fault.info.toNat) else none).join

/-! ## Well-formedness: each check refuses an ill-formed term -/

theorem test_wf_ldi : ¬ (Instr.ldi 8 0).WellFormed := by decide
theorem test_wf_prn : ¬ (Instr.prn 255).WellFormed := by decide
theorem test_wf_mul_a : ¬ (Instr.mul 8 7).WellFormed := by decide
theorem test_wf_mul_b : ¬ (Instr.mul 7 8).WellFormed := by decide
theorem test_wf_cmp_a : ¬ (Instr.cmp 8 7).WellFormed := by decide
theorem test_wf_cmp_b : ¬ (Instr.cmp 7 8).WellFormed := by decide
theorem test_wf_push : ¬ (Instr.push 8).WellFormed := by decide
theorem test_wf_pop : ¬ (Instr.pop 8).WellFormed := by decide
theorem test_wf_call : ¬ (Instr.call 8).WellFormed := by decide
theorem test_wf_jmp : ¬ (Instr.jmp 8).WellFormed := by decide
theorem test_wf_jeq : ¬ (Instr.jeq 8).WellFormed := by decide
theorem test_wf_jne : ¬ (Instr.jne 8).WellFormed := by decide
theorem test_wf_add_a : ¬ (Instr.add 8 7).WellFormed := by decide
theorem test_wf_add_b : ¬ (Instr.add 7 8).WellFormed := by decide
theorem test_wf_immediate_is_any_byte : (Instr.ldi 7 255).WellFormed := by decide
theorem test_map_with_a_shared_byte_is_illegal : ¬ { defaultOpcodeMap with add := 0x82 }.Legal := by decide
theorem test_map_with_two_equal_bytes_is_illegal : ¬ { defaultOpcodeMap with jeq := 0x56 }.Legal := by decide

/-! ## Decoding: one word of each instruction, written out from 30_encoding.md R72, R75, R77 -/

theorem test_decode_hlt : decode defaultOpcodeMap [0b00000001] = .ok .hlt := by decide
theorem test_decode_ldi : decode defaultOpcodeMap [0b10000010, 0b00000111, 0b11111110] = .ok (.ldi 7 254) := by decide
theorem test_decode_prn : decode defaultOpcodeMap [0b01000111, 0b00000010] = .ok (.prn 2) := by decide
theorem test_decode_mul : decode defaultOpcodeMap [0b10100010, 0b00000001, 0b00000010] = .ok (.mul 1 2) := by decide
theorem test_decode_cmp : decode defaultOpcodeMap [0b10100111, 0b00000011, 0b00000100] = .ok (.cmp 3 4) := by decide
theorem test_decode_push : decode defaultOpcodeMap [0b01000101, 0b00000101] = .ok (.push 5) := by decide
theorem test_decode_pop : decode defaultOpcodeMap [0b01000110, 0b00000110] = .ok (.pop 6) := by decide
theorem test_decode_call : decode defaultOpcodeMap [0b01010000, 0b00000001] = .ok (.call 1) := by decide
theorem test_decode_ret : decode defaultOpcodeMap [0b00010001] = .ok .ret := by decide
theorem test_decode_jmp : decode defaultOpcodeMap [0b01010100, 0b00000011] = .ok (.jmp 3) := by decide
theorem test_decode_jeq : decode defaultOpcodeMap [0b01010101, 0b00000010] = .ok (.jeq 2) := by decide
theorem test_decode_jne : decode defaultOpcodeMap [0b01010110, 0b00000010] = .ok (.jne 2) := by decide
theorem test_decode_add : decode defaultOpcodeMap [0b10100000, 0b00000110, 0b00000101] = .ok (.add 6 5) := by decide
theorem test_decode_illegal : decode defaultOpcodeMap [0x00, 0x01] = .error (.illegalOpcode 0x00) := by decide
theorem test_decode_truncated : decode defaultOpcodeMap [0xA0, 0x09] = .error .truncated := by decide
theorem test_decode_second_register : decode defaultOpcodeMap [0xA0, 0x01, 0x09] = .error (.regIndex 9) := by decide
theorem test_decode_table_word : decodeTableWord 24 0x080082 = some (.ldi 0 8) := by decide
theorem test_decode_table_word_short : decodeTableWord 8 0x47 = some (.prn 0) := by decide

/-- 30_encoding.md R78: under the default map bits 7:6 of every opcode give its operand count. -/
theorem test_default_map_layout :
    ∀ k ∈ Mnemonic.all, (defaultOpcodeMap.code k).toNat / 64 = k.format.operandCount := by decide

/-! ## One step of each instruction -/

/-- V-A1. -/
theorem test_add_wraps :
    after (step (mk 0 [(0, 0xC8), (1, 0x64)] [(0, 0xA0), (1, 0), (2, 1)])) (fun t => (t.reg 0, t.pc)) =
      some (⟨0x2C, true⟩, 3) := by decide
/-- V-A23: both index checks precede the read of the undefined R1. -/
theorem test_add_checks_indices_first : raised (step (mk 0 [] [(0, 0xA0), (1, 1), (2, 9)])) = some (4, 0, 9) := by decide
/-- V-A7. -/
theorem test_mul_low_byte :
    after (step (mk 0 [(0, 0xFF), (1, 0xFF)] [(0, 0xA2), (1, 0), (2, 1)])) (fun t => t.reg 0) = some ⟨0x01, true⟩ := by
  decide
/-- V-A13: the comparison is unsigned. -/
theorem test_cmp_unsigned :
    after (step (mk 0 [(0, 0x80), (1, 0x7F)] [(0, 0xA7), (1, 0), (2, 1)])) (fun t => t.flags) =
      some ⟨false, true, false⟩ := by decide
/-- V-A16: E is retained. -/
theorem test_cmp_retains :
    after (step (mk 0 [(0, 1), (1, 2)] [(0, 0xA7), (1, 0), (2, 1)] ⟨true, false, false⟩)) (fun t => t.flags) =
      some ⟨true, false, true⟩ := by decide
/-- V-D2: LDI may write SP. -/
theorem test_ldi_sp :
    after (step (mk 0 [] [(0, 0x82), (1, 7), (2, 0x10)])) (fun t => (t.reg 7, t.pc)) = some (⟨0x10, true⟩, 3) := by decide
/-- V-D7: the second operand byte would be at 256. -/
theorem test_ldi_runs_off_memory : raised (step (mk 0xFE [] [(0xFE, 0x82), (0xFF, 0)])) = some (3, 0xFE, 0x100) := by decide
/-- V-D9. -/
theorem test_prn_sp : after (step (mk 0 [] [(0, 0x47), (1, 7)])) (fun t => (t.output, t.pc)) = some ([0xF4], 2) := by decide
/-- V-D10. -/
theorem test_prn_undefined : raised (step (mk 0 [] [(0, 0x47), (1, 1)])) = some (7, 0, 1) := by decide
/-- V-S3: PUSH R7 pushes the new SP. -/
theorem test_push_sp :
    after (step (mk 0 [] [(0, 0x45), (1, 7)])) (fun t => (t.reg 7, Memory.read? t.mem 0xF3)) =
      some (⟨0xF3, true⟩, some 0xF3) := by decide
/-- V-S7. -/
theorem test_push_at_zero : raised (step (mk 0 [(7, 0), (0, 9)] [(0, 0x45), (1, 0)])) = some (5, 0, 0) := by decide
/-- V-S4: POP R7 leaves the popped byte plus 1. -/
theorem test_pop_sp :
    after (step (mk 0 [(7, 0xF3)] [(0, 0x46), (1, 7), (0xF3, 0x10)])) (fun t => t.reg 7) = some ⟨0x11, true⟩ := by decide
/-- V-S12: the read precedes the SP check. -/
theorem test_pop_reads_first : raised (step (mk 0 [(7, 0xFF)] [(0, 0x46), (1, 0)])) = some (8, 0, 0xFF) := by decide
/-- V-C1. -/
theorem test_call :
    after (step (mk 0x10 [(1, 0x40)] [(0x10, 0x50), (0x11, 1)])) (fun t => (t.pc, Memory.read? t.mem 0xF3)) =
      some (0x40, some 0x12) := by decide
/-- V-C3. -/
theorem test_call_return_address : raised (step (mk 0xFE [(1, 0)] [(0xFE, 0x50), (0xFF, 1)])) = some (6, 0xFE, 0x100) := by
  decide
/-- V-C2. -/
theorem test_ret :
    after (step (mk 0x20 [(7, 0xF3)] [(0x20, 0x11), (0xF3, 0x12)])) (fun t => (t.pc, t.reg 7)) =
      some (0x12, ⟨0xF4, true⟩) := by decide
/-- V-C6. -/
theorem test_ret_at_top : raised (step (mk 0x20 [(7, 0xFF)] [(0x20, 0x11), (0xFF, 0x12)])) = some (5, 0x20, 0xFF) := by decide
/-- V-J1. -/
theorem test_jmp : after (step (mk 0 [(3, 0x20)] [(0, 0x54), (1, 3)])) (fun t => t.pc) = some 0x20 := by decide
/-- V-J3. -/
theorem test_jeq_taken :
    after (step (mk 0 [(2, 0x30)] [(0, 0x55), (1, 2)] ⟨true, false, false⟩)) (fun t => t.pc) = some 0x30 := by decide
/-- V-J5: the undefined register is not read. -/
theorem test_jeq_not_taken : after (step (mk 0 [] [(0, 0x55), (1, 2)])) (fun t => (t.pc, t.status)) = some (2, .running) := by
  decide
/-- V-J8. -/
theorem test_jne_taken : after (step (mk 0 [(2, 0x30)] [(0, 0x56), (1, 2)])) (fun t => t.pc) = some 0x30 := by decide
/-- V-J9: G and L are not read. -/
theorem test_jne_not_taken :
    after (step (mk 0 [(2, 0x30)] [(0, 0x56), (1, 2)] ⟨true, true, true⟩)) (fun t => t.pc) = some 2 := by decide
/-- V-H1. -/
theorem test_hlt : after (step (mk 5 [] [(5, 1)])) (fun t => (t.status, t.pc)) = some (.halted, 5) := by decide
/-- V-L8: the operand fetch precedes the index check. -/
theorem test_fetch_before_check : raised (step (mk 0 [] [(0, 0xA0), (1, 9)])) = some (8, 0, 2) := by decide
/-- V-L7: JEQ falls through to 256, where the next fetch raises MEM_RANGE. -/
theorem test_pc_256 : raised (step (mk 256 [] [])) = some (3, 0x100, 0x100) := by decide
/-- P5's alternative: under CMP_POLICY = clear the stale E is cleared (92_eei_decisions.md D4). -/
theorem test_cmp_policy_clear : flagsAfterCmp .clear 1 2 ⟨true, false, false⟩ = ⟨false, false, true⟩ := by decide
/-- The word withFetchWord stores is the one the next step runs. -/
theorem test_withFetchWord : after (step (State.reset.withFetchWord 24 0x080082)) (fun t => t.reg 0) = some ⟨8, true⟩ := by
  decide

/-! ## The host's side -/

/-- V-L10. -/
theorem test_load_refused :
    (State.reset.load (List.replicate 257 0)).fault = ⟨9, 0, 257⟩ ∧ (State.reset.load (List.replicate 257 0)).mem = [] := by
  decide +kernel
/-- V-L11. -/
theorem test_source_refused :
    (State.reset.loadSource ['1', '0', '0', '0', '0', '0', '2', 'x']).fault = ⟨9, 0, 0⟩ := by decide
/-- V-L12. -/
theorem test_source_loaded :
    parseSource (literal 0x82 ++ '\n' :: literal 0 ++ ['\n', '\n', '#', 'c', '\n'] ++ literal 0x47 ++ [' ', '#', ' ', 'p']) =
      some [0x82, 0x00, 0x47] := by decide
/-- V-L13. -/
theorem test_start_when_halted : ({ mk 5 [] [] with status := .halted }.start).status = .halted := by decide
/-- V-D9, V-D12: the host prints 244, 255 and 8. -/
theorem test_render : renderOutput [0xF4, 0xFF, 8] = ['2', '4', '4', '\n', '2', '5', '5', '\n', '8', '\n'] := by decide
/-- 60_exceptions.md R188. -/
theorem test_run_end : (mk 0 [] []).runEnd = .notEnded ∧ ({ mk 5 [] [] with status := .halted }).runEnd = .ordinary := by
  decide

/-! ## Witnesses: each statement's hypotheses are met together, clause by clause, at the ends of their ranges -/

theorem witness_StartLeavesIdleOnly : State.reset.status = .idle ∧ (mk 0 [] []).status ≠ .idle := by decide
theorem witness_LoadWritesTheImageOrRefusesIt :
    State.reset.status = .idle ∧ (List.replicate 256 (0 : Byte)).length ≤ 256 ∧ 255 < (List.replicate 256 (0 : Byte)).length ∧
      256 < (List.replicate 257 (0 : Byte)).length ∧ (List.replicate 511 (0 : Byte)).length < 512 := by
  decide +kernel
theorem witness_OnlyRunningTakesAStep :
    State.reset.status ≠ .running ∧ ({ State.reset with status := .halted } : State).status = .halted ∧
      ({ State.reset with status := .faulted } : State).status = .faulted ∧ HostInput.start ≠ .reset := by decide
theorem witness_IdleIsLeftByStartOrRefusedLoad :
    State.reset.status = .idle ∧ (State.reset.input .start).status ≠ .idle ∧
      (State.reset.input (.load (List.replicate 257 0))).status ≠ .idle := by decide +kernel
theorem witness_LengthIsKnownFromTheOpcodeByte :
    decode defaultOpcodeMap (0x45 :: [7]) = .ok (.push 7) ∧ decode defaultOpcodeMap (0x45 :: [0, 9]) = .ok (.push 0) := by decide
theorem witness_LegalMapsAreUnambiguous : defaultOpcodeMap.Legal := by decide
theorem witness_DecodeOfEncodeIsTheInstruction : defaultOpcodeMap.Legal ∧ (Instr.add 7 0).WellFormed := by decide
theorem witness_DecodedBytesAreTheEncoding : decode defaultOpcodeMap [0x45, 0x07, 0x00] = .ok (.push 7) := by decide
theorem witness_StepRunsTheDecodedInstruction :
    (mk 0xFE [] [(0xFE, 0x45), (0xFF, 7)]).status = .running ∧
      (mk 0xFE [] [(0xFE, 0x45), (0xFF, 7)]).memRead 0xFE = .ok 0x45 ∧
      (mk 0xFE [] [(0xFE, 0x45), (0xFF, 7)]).memRead 0xFF = .ok 7 ∧
      decode defaultOpcodeMap [0x45, 7] = .ok (.push 7) := by decide
/-- The five clauses: pc 256; an undefined cell at 255; an illegal opcode at 255; LDI whose second operand byte is at
256; ADD R7, 8. -/
theorem witness_FetchRaisesInOrder :
    (255 < (mk 256 [] []).pc.toNat) ∧ ((mk 255 [] []).pc.toNat ≤ 255 ∧ Memory.read? (mk 255 [] []).mem 255 = none) ∧
      ((mk 255 [] [(255, 0)]).memRead 255 = .ok 0 ∧ ∀ k ∈ Mnemonic.all, defaultOpcodeMap.code k ≠ 0) ∧
      ((mk 254 [] [(254, 0x82), (255, 0)]).memRead 254 = .ok 0x82 ∧ defaultOpcodeMap.mnemonic? 0x82 = some .LDI ∧
        2 ≤ Mnemonic.LDI.format.operandCount ∧ (mk 254 [] [(254, 0x82), (255, 0)]).memRead 255 = .ok 0 ∧
        (mk 254 [] [(254, 0x82), (255, 0)]).memRead 256 = .error (.memRange 256)) ∧
      ((mk 0 [] [(0, 0xA0), (1, 7), (2, 8)]).memRead 1 = .ok 7 ∧ (mk 0 [] [(0, 0xA0), (1, 7), (2, 8)]).memRead 2 = .ok 8 ∧
        (Mnemonic.ADD.bindOperands 7 8).registerOperands = [7] ++ 8 :: [] ∧ (7 : Byte).toNat ≤ 7 ∧ 7 < (8 : Byte).toNat) := by
  decide
theorem witness_IllegalOpcodeBytes :
    (mk 0 [] [(0, 0)]).status = .running ∧ (mk 0 [] [(0, 0)]).memRead 0 = .ok 0 ∧
      ∀ k ∈ Mnemonic.all, defaultOpcodeMap.code k ≠ 0 := by decide
theorem witness_MemoryReadsAndWrites :
    Memory.read? (mk 0 [] [(255, 9)]).mem 255 = some 9 ∧ Memory.read? (mk 0 [] []).mem 255 = none ∧ 255 ≤ 255 ∧ 255 < 256 := by
  decide
theorem witness_MemoriesThatReadAlikeAreEqual :
    Memory.wf [(0, 1), (255, 2)] ∧ Memory.wf (Memory.write [(0, 1)] 255 2) ∧
      ∀ a, Memory.read? [(0, 1), (255, 2)] a = Memory.read? (Memory.write [(0, 1)] 255 2) a :=
  ⟨by decide, by decide, fun _ => rfl⟩
theorem witness_FetchSeesTheStoredByte :
    (∃ t, exec (.push (regByte 0)) (mk 0 [(0, 1)] []) = .next t) ∧ Holds (mk 0 [(0, 1)] []) spIdx 0xF4 ∧
      Holds (mk 0 [(0, 1)] []) 0 1 ∧ (∀ k ∈ Mnemonic.all, defaultOpcodeMap.code k ≠ 0) ∧
      (∃ t, exec (.call (regByte 0)) (mk 0 [(0, 1)] []) = .next t ∧ t.status = .running) ∧
      ∀ k ∈ Mnemonic.all, (defaultOpcodeMap.code k).toNat ≠ (mk 0 [(0, 1)] []).pc.toNat + 2 :=
  ⟨⟨_, rfl⟩, by decide, by decide, by decide, ⟨_, rfl, rfl⟩, by decide⟩
/-- LDI: bad operands; its first operand byte at 256; its second in an undefined cell. -/
theorem witness_LdiLoadsTheImmediate :
    7 < (8 : Byte).toNat ∧ 7 < (255 : Byte).toNat ∧
      ((mk 255 [] [(255, 0x82)]).status = .running ∧ (mk 255 [] [(255, 0x82)]).memRead 255 = .ok 0x82 ∧
        (mk 255 [] [(255, 0x82)]).memRead 256 = .error (.memRange 256)) ∧
      (mk 0 [] [(0, 0x82), (1, 0)]).memRead 1 = .ok 0 ∧
      (mk 0 [] [(0, 0x82), (1, 0)]).memRead 2 = .error (.uninitMem 2) := by decide
/-- PRN, JMP: a defined register, R7 among them, an undefined one and a bad operand. -/
theorem witness_PrnEmitsTheRegister :
    Holds (mk 0 [(0, 255)] []) 0 255 ∧ Holds (mk 0 [] []) spIdx 0xF4 ∧ Undefined (mk 0 [] []) 6 ∧ 7 < (8 : Byte).toNat := by
  decide
theorem witness_JmpGoesToTheRegister :
    Holds (mk 0 [(0, 255)] []) 0 255 ∧ Holds (mk 0 [(0, 0)] []) 0 0 ∧ Undefined (mk 0 [] []) 0 ∧ 7 < (8 : Byte).toNat := by
  decide
/-- ADD, MUL: two different registers, and the same one twice. -/
theorem witness_AddIsModulo256 :
    (Holds (mk 0 [(0, 255), (7, 1)] []) 0 255 ∧ Holds (mk 0 [(0, 255), (7, 1)] []) 7 1) ∧ Holds (mk 0 [] []) spIdx 0xF4 := by
  decide
theorem witness_MulIsModulo256 :
    (Holds (mk 0 [(0, 255), (7, 255)] []) 0 255 ∧ Holds (mk 0 [(0, 255), (7, 255)] []) 7 255) ∧
      Holds (mk 0 [] []) spIdx 0xF4 := by decide
/-- CMP: equal, greater, less, at the signed boundary. -/
theorem witness_CmpSetsOneFlag :
    Holds (mk 0 [(0, 128), (1, 127)] []) 0 128 ∧ Holds (mk 0 [(0, 128), (1, 127)] []) 1 127 ∧
      (128 : Byte).toNat = (128 : Byte).toNat ∧ (127 : Byte).toNat < (128 : Byte).toNat := by decide
/-- A bad operand; an undefined a; a defined a and an undefined b. -/
theorem witness_AluRaisesInOrder :
    (Instr.add = Instr.add ∨ Instr.add = Instr.mul ∨ Instr.add = Instr.cmp) ∧ 7 < (8 : Byte).toNat ∧
      Undefined (mk 0 [] []) 0 ∧ Holds (mk 0 [(0, 1)] []) 0 1 ∧ Undefined (mk 0 [(0, 1)] []) 1 :=
  ⟨.inl rfl, by decide, by decide, by decide, by decide⟩
/-- PUSH: SP = 1 and SP = 255, R7 itself, SP = 0, an undefined register. -/
theorem witness_PushStoresBelowTheStack :
    (Holds (mk 0 [(7, 1), (0, 9)] []) spIdx 1 ∧ (1 : Byte) ≠ 0 ∧ Holds (mk 0 [(7, 1), (0, 9)] []) 0 9) ∧
      (Holds (mk 0 [(7, 255)] []) spIdx 255 ∧ (254 : Byte) = 255 - 1) ∧ Holds (mk 0 [(7, 0)] []) spIdx 0 ∧
      (Holds (mk 0 [] []) spIdx 0xF4 ∧ Undefined (mk 0 [] []) 3) ∧ 7 < (8 : Byte).toNat := by decide
/-- POP: SP = 254 and SP = 0; R7 popped with 254; an undefined cell; SP = 255; 255 popped into R7. -/
theorem witness_PopLoadsFromTheStack :
    (Holds (mk 0 [(7, 254)] [(254, 7)]) spIdx 254 ∧ Memory.read? (mk 0 [(7, 254)] [(254, 7)]).mem 254 = some 7 ∧
      (0 : RegIdx) ≠ spIdx ∧ (254 : Byte) ≠ 255) ∧
      (Holds (mk 0 [(7, 255)] [(255, 254)]) spIdx 255 ∧ Memory.read? (mk 0 [(7, 255)] [(255, 254)]).mem 255 = some 254) ∧
      Memory.read? (mk 0 [] []).mem 0xF4 = none ∧ Memory.read? (mk 0 [(7, 0)] [(0, 255)]).mem 0 = some 255 ∧
      7 < (8 : Byte).toNat := by decide
/-- CALL: at pc 253 and SP = 1; R7 itself; SP = 0; at pc 254; an undefined register. -/
theorem witness_CallSavesTheReturnAddress :
    (Holds (mk 253 [(7, 1), (0, 9)] []) spIdx 1 ∧ Holds (mk 253 [(7, 1), (0, 9)] []) 0 9 ∧
      (mk 253 [(7, 1), (0, 9)] []).pc.toNat + 2 ≤ 255) ∧ Holds (mk 0 [(7, 0)] []) spIdx 0 ∧
      (Holds (mk 254 [] []) spIdx 0xF4 ∧ 255 < (mk 254 [] []).pc.toNat + 2) ∧
      (Undefined (mk 253 [] []) 0 ∧ (mk 253 [] []).pc.toNat + 2 ≤ 255) ∧ 7 < (8 : Byte).toNat := by decide
theorem witness_RetTakesThePcFromTheStack :
    (Holds (mk 0 [(7, 254)] [(254, 7)]) spIdx 254 ∧ Memory.read? (mk 0 [(7, 254)] [(254, 7)]).mem 254 = some 7) ∧
      (Holds (mk 0 [] []) spIdx 0xF4 ∧ Memory.read? (mk 0 [] []).mem 0xF4 = none) ∧
      (Holds (mk 0 [(7, 255)] [(255, 7)]) spIdx 255 ∧ Memory.read? (mk 0 [(7, 255)] [(255, 7)]).mem 255 = some 7) := by decide
/-- E = 1 and E = 0, with a defined register for the one that jumps. -/
theorem witness_JeqJneLaw :
    ((mk 0 [(2, 255)] [] ⟨true, false, false⟩).flags.e = true ∧ Holds (mk 0 [(2, 255)] [] ⟨true, false, false⟩) 2 255) ∧
      ((mk 0 [(2, 0)] [] ⟨false, true, true⟩).flags.e = false ∧ Holds (mk 0 [(2, 0)] [] ⟨false, true, true⟩) 2 0) := by decide
theorem witness_ConditionalJumpsRaise :
    7 < (8 : Byte).toNat ∧ ((mk 0 [] [] ⟨true, false, false⟩).flags.e = true ∧ Undefined (mk 0 [] [] ⟨true, false, false⟩) 2) ∧
      ((mk 0 [] []).flags.e = false ∧ Undefined (mk 0 [] []) 2) := by decide
theorem witness_PushPopLaw :
    ∃ t u, (mk 0 [(1, 0x2A)] []).Safe ∧ exec (.push (regByte 1)) (mk 0 [(1, 0x2A)] []) = .next t ∧ t.Safe ∧
      exec (.pop (regByte 2)) t = .next u ∧ u.Safe := ⟨_, _, by decide, rfl, by decide, rfl, by decide⟩
theorem witness_CallRetLaw :
    ∃ t v, (mk 0x10 [(1, 0x40)] []).Safe ∧ exec (.call (regByte 1)) (mk 0x10 [(1, 0x40)] []) = .next t ∧ t.Safe ∧
      Holds t spIdx 0xF3 ∧ exec .ret t = .next v ∧ v.Safe := ⟨_, _, by decide, rfl, by decide, by decide, rfl, by decide⟩
/-- A JEQ that jumps, with G and L other than they were; a CMP with every flag other than it was. -/
theorem witness_FlagsAreWrittenByCmpAndReadByJeqJne :
    (∃ t, exec (.jeq (regByte 7)) (mk 0 [] [] ⟨true, false, true⟩) = .next t ∧ t.Safe) ∧
      (∀ a b, Instr.jeq (regByte 7) ≠ .cmp a b) ∧
      ((∃ r, Instr.jeq (regByte 7) = .jeq r ∨ Instr.jeq (regByte 7) = .jne r) →
        (⟨true, true, false⟩ : Flags).e = (mk 0 [] [] ⟨true, false, true⟩).flags.e) ∧
      ¬ (∃ r, Instr.cmp (regByte 7) (regByte 7) = .jeq r ∨ Instr.cmp (regByte 7) (regByte 7) = .jne r) ∧
      ∃ t, exec (.cmp (regByte 7) (regByte 7)) (mk 0 [] []) = .next t ∧ t.Safe :=
  ⟨⟨_, rfl, by decide⟩, by simp, fun _ => by decide, by simp, ⟨_, rfl, by decide⟩⟩
theorem witness_NoInstructionClearsAFlag :
    ∃ t, exec (.cmp (regByte 7) (regByte 7)) (mk 0 [] [] ⟨true, true, true⟩) = .next t ∧ t.Safe := ⟨_, rfl, by decide⟩
/-- A JMP; a PUSH at SP = 1; a POP at SP = 0 with a cell stored at 1, and one at SP = 254; a fetch of HLT at 0 with a
cell stored at 1, at 3, and below a pc of 1. -/
theorem witness_WhichOperationsReachMemory :
    (∃ t, exec (.jmp (regByte 7)) (mk 0 [] []) = .next t ∧ t.Safe ∧
      ∀ r, Instr.jmp (regByte 7) ≠ .push r ∧ Instr.jmp (regByte 7) ≠ .call r) ∧
    (∃ t, exec (.push (regByte 7)) (mk 0 [(7, 1)] []) = .next t ∧ t.status = .running ∧ Holds (mk 0 [(7, 1)] []) spIdx 1 ∧
      ∀ f, t ≠ (mk 0 [(7, 1)] []).enterFault f) ∧
    (∃ t, exec (.pop (regByte 0)) (mk 0 [(7, 0)] [(0, 9)]) = .next t ∧ t.status = .running ∧
      1 ≠ ((mk 0 [(7, 0)] [(0, 9)]).reg spIdx).value.toNat) ∧
    (∃ t, exec (.pop (regByte 0)) (mk 0 [(7, 254)] [(254, 9)]) = .next t ∧ t.status = .running ∧
      Holds (mk 0 [(7, 254)] [(254, 9)]) spIdx 254 ∧ ∀ f, t ≠ (mk 0 [(7, 254)] [(254, 9)]).enterFault f) ∧
    (mk 0 [] [(0, 1)]).fetchInstr defaultOpcodeMap = .ok .hlt ∧ (mk 0 [] [(0, 1)]).pc.toNat + Instr.hlt.length ≤ 1 ∧
    (mk 0 [] [(0, 1)]).pc.toNat + 2 < 3 ∧ 0 < (mk 1 [] []).pc.toNat :=
  ⟨⟨_, rfl, by decide, by simp⟩, ⟨_, rfl, by decide, by decide, by intro _ h; cases congrArg State.status h⟩,
    ⟨_, rfl, by decide, by decide⟩,
    ⟨_, rfl, by decide, by decide, by intro _ h; cases congrArg State.status h⟩, by decide, by decide, by decide,
    by decide⟩
theorem witness_OtherRegistersAreUnchanged :
    ∃ t, exec (.pop (regByte 2)) (mk 0 [(7, 0xF3)] [(0xF3, 5)]) = .next t ∧ t.Safe ∧
      ¬ writtenRegisters (.pop (regByte 2)) 3 := ⟨_, rfl, by decide, by unfold writtenRegisters; decide⟩
theorem witness_UnreadRegistersDoNotMatter :
    ∃ t, exec (.jne (regByte 2)) (mk 0 [] [] ⟨true, false, false⟩) = .next t ∧ t.Safe ∧
      ¬ readRegisters true (.jne (regByte 2)) 2 := ⟨_, rfl, by decide, by unfold readRegisters; decide⟩
theorem witness_OnlyHltAndFaultsChangeTheStatus : ∃ t, exec .hlt (mk 0 [] []) = .next t ∧ t.Safe := ⟨_, rfl, by decide⟩
theorem witness_OnlyPrnEmits : ∃ t, exec (.prn (regByte 7)) (mk 0 [] []) = .next t ∧ t.Safe := ⟨_, rfl, by decide⟩
theorem witness_DefinedStaysDefined :
    ∃ t, stepWith defaultOpcodeMap (mk 0 [] [(0, 0x45), (1, 7)]) = .next t ∧ t.Safe ∧
      ((mk 0 [] [(0, 0x45), (1, 7)]).reg 7).defined = true ∧ (Memory.read? (mk 0 [] [(0, 0x45), (1, 7)]).mem 1).isSome :=
  ⟨_, rfl, by decide, by decide, by decide⟩
theorem witness_FaultCodesAndInfo : (256 : Nat) ≤ 256 ∧ 511 < 512 := by decide
theorem witness_FaultsArePrecise :
    ∃ t, (mk 0 [] [(0, 0x47), (1, 1)]).status = .running ∧
      stepWith defaultOpcodeMap (mk 0 [] [(0, 0x47), (1, 1)]) = .next t ∧ t.status = .faulted := ⟨_, rfl, rfl, by decide⟩
theorem witness_StepRaisesOnlyItsCodes :
    ∃ t, (mk 256 [] []).status = .running ∧ stepWith defaultOpcodeMap (mk 256 [] []) = .next t ∧ t.status = .faulted :=
  ⟨_, rfl, rfl, by decide⟩
theorem witness_StepKeepsTheInvariant :
    (mk 0xFE [(0, 7)] [(0xFE, 0x47), (0xFF, 0)]).Inv ∧
      ∃ t, stepWith defaultOpcodeMap (mk 0xFE [(0, 7)] [(0xFE, 0x47), (0xFF, 0)]) = .next t ∧ t.pc = 256 :=
  ⟨⟨by decide, by decide, by decide, by decide⟩, _, rfl, by decide⟩
theorem witness_HostInputsKeepTheInvariant : State.reset.Inv := ⟨by decide, by decide, by decide, by decide⟩
/-- Two states that differ only in the value under R0's clear tag look alike to the host. -/
theorem witness_UndefinedValuesAreNeverSeen :
    ({ mk 0 [] [(0, 0x47), (1, 7)] with regs := (mk 0 [] []).regs.set 0 ⟨99, false⟩ } : State).view =
      (mk 0 [] [(0, 0x47), (1, 7)]).view ∧
      ∃ t, stepWith defaultOpcodeMap (mk 0 [] [(0, 0x47), (1, 7)]) = .next t := ⟨by decide +kernel, _, rfl⟩

end Sys2Proof.Tests
end

section
/-! PROOFS. Legal opcode maps (00_scope.md R8): the opcode byte of a mnemonic looks up to that mnemonic. -/

namespace Sys2Proof

/-- Distinct mnemonics have distinct opcode bytes under a legal map. -/
theorem OpcodeMap.Legal.code_injective {m : OpcodeMap} (hm : m.Legal) : Function.Injective m.code :=
  fun j k hjk => List.inj_on_of_nodup_map hm j.mem_all k.mem_all hjk

/-- The lookup finds some mnemonic, since `k` itself matches, and whichever it finds has the byte of `k`. -/
theorem OpcodeMap.Legal.mnemonic?_code {m : OpcodeMap} (hm : m.Legal) (k : Mnemonic) :
    m.mnemonic? (m.code k) = some k := by
  cases hfound : m.mnemonic? (m.code k) with
  | none => exact absurd rfl (OpcodeMap.mnemonic?_eq_none.mp hfound k)
  | some j => exact congrArg some (hm.code_injective (OpcodeMap.code_of_mnemonic? hfound))

theorem defaultOpcodeMap_legal : defaultOpcodeMap.Legal := by decide

/-- Settles O10: a legal map's opcode bytes are pairwise distinct, so the lookup's first match is its only one. -/
theorem legalMapsAreUnambiguous : Obligations.LegalMapsAreUnambiguous :=
  ⟨fun _ hm k => hm.mnemonic?_code k, defaultOpcodeMap_legal⟩

end Sys2Proof
end

section
/-! PROOFS. What a finished instruction did, said once: the shape of the next state, and from it what every
instruction leaves as it was (10_state.md R23, R32, R33, R39). -/

namespace Sys2Proof.Machine

open Sys2Proof.Certificates

/-- What each instruction's finished body made of the state `s`, with what it found there. -/
inductive Completed : Instr → State → State → Prop
  | hlt {s} : Completed .hlt s s.halt
  | ldi {s i imm} : Completed (.ldi (regByte i) imm) s ((s.writeReg i imm).advance 3)
  | prn {s i v} (hv : Holds s i v) : Completed (.prn (regByte i)) s ((s.emit v).advance 2)
  | mul {s i j x y} (hx : Holds s i x) (hy : Holds s j y) :
      Completed (.mul (regByte i) (regByte j)) s ((s.writeReg i (aluMul x y)).advance 3)
  | cmp {s i j x y} (hx : Holds s i x) (hy : Holds s j y) :
      Completed (.cmp (regByte i) (regByte j)) s ((s.setFlags (flagsAfterCmp cmpPolicy x y s.flags)).advance 3)
  | push {s i sp v} (hsp : Holds s spIdx sp) (h0 : sp ≠ 0) (hv : Holds (s.writeReg spIdx (pushAddress sp)) i v) :
      Completed (.push (regByte i)) s
        (((s.writeReg spIdx (pushAddress sp)).store (pushAddress sp).toNat v).advance 2)
  | pop {s i sp v sp₁} (hsp : Holds s spIdx sp) (hv : Memory.read? s.mem sp.toNat = some v)
      (hsp₁ : Holds (s.writeReg i v) spIdx sp₁) (h255 : sp₁ ≠ 255) :
      Completed (.pop (regByte i)) s (((s.writeReg i v).writeReg spIdx (sp₁ + 1)).advance 2)
  | call {s i sp v} (hsp : Holds s spIdx sp) (h0 : sp ≠ 0) (hra : returnAddress s ≤ 255)
      (hv : Holds (s.writeReg spIdx (pushAddress sp)) i v) :
      Completed (.call (regByte i)) s (((s.writeReg spIdx (pushAddress sp)).store (pushAddress sp).toNat
        (BitVec.ofNat 8 (returnAddress s))).jump v)
  | ret {s sp v} (hsp : Holds s spIdx sp) (hv : Memory.read? s.mem sp.toNat = some v) (h255 : sp ≠ 255) :
      Completed .ret s ((s.writeReg spIdx (sp + 1)).jump v)
  | jmp {s i v} (hv : Holds s i v) : Completed (.jmp (regByte i)) s (s.jump v)
  | jeqTaken {s i v} (he : s.flags.e = true) (hv : Holds s i v) : Completed (.jeq (regByte i)) s (s.jump v)
  | jeqNotTaken {s i} (he : s.flags.e = false) : Completed (.jeq (regByte i)) s (s.advance 2)
  | jneTaken {s i v} (he : s.flags.e = false) (hv : Holds s i v) : Completed (.jne (regByte i)) s (s.jump v)
  | jneNotTaken {s i} (he : s.flags.e = true) : Completed (.jne (regByte i)) s (s.advance 2)
  | add {s i j x y} (hx : Holds s i x) (hy : Holds s j y) :
      Completed (.add (regByte i) (regByte j)) s ((s.writeReg i (aluAdd x y)).advance 3)

theorem completed_of_instrBody_ok {i : Instr} {s t : State} (h : instrBody i s = .ok t) : Completed i s t := by
  cases i with
  | hlt => cases h; exact .hlt
  | ldi r imm => obtain ⟨i, rfl, rfl⟩ := ldiBody_ok_iff.mp h; exact .ldi
  | prn r => obtain ⟨i, v, rfl, hv, rfl⟩ := prnBody_ok_iff.mp h; exact .prn hv
  | mul a b => obtain ⟨i, j, x, y, rfl, rfl, hx, hy, rfl⟩ := aluBody_ok_iff.mp h; exact .mul hx hy
  | cmp a b => obtain ⟨i, j, x, y, rfl, rfl, hx, hy, rfl⟩ := cmpBody_ok_iff.mp h; exact .cmp hx hy
  | push r => obtain ⟨i, sp, v, rfl, hsp, h0, hv, rfl⟩ := pushBody_ok_iff.mp h; exact .push hsp h0 hv
  | pop r =>
    obtain ⟨i, sp, v, sp₁, rfl, hsp, hv, hsp₁, h255, rfl⟩ := popBody_ok_iff.mp h
    exact .pop hsp hv hsp₁ h255
  | call r => obtain ⟨i, sp, v, rfl, hsp, h0, hra, hv, rfl⟩ := callBody_ok_iff.mp h; exact .call hsp h0 hra hv
  | ret => obtain ⟨sp, v, hsp, hv, h255, rfl⟩ := retBody_ok_iff.mp h; exact .ret hsp hv h255
  | jmp r =>
    obtain ⟨i, rfl, ⟨-, v, hv, rfl⟩ | ⟨h, -⟩⟩ := jumpIfBody_ok_iff.mp h
    · exact .jmp hv
    · cases h
  | jeq r =>
    obtain ⟨i, rfl, ⟨he, v, hv, rfl⟩ | ⟨he, rfl⟩⟩ := jumpIfBody_ok_iff.mp h
    · exact .jeqTaken he hv
    · exact .jeqNotTaken he
  | jne r =>
    obtain ⟨i, rfl, ⟨he, v, hv, rfl⟩ | ⟨he, rfl⟩⟩ := jumpIfBody_ok_iff.mp h
    · exact .jneTaken (by simpa using he) hv
    · exact .jneNotTaken (by simpa using he)
  | add a b => obtain ⟨i, j, x, y, rfl, rfl, hx, hy, rfl⟩ := aluBody_ok_iff.mp h; exact .add hx hy

theorem completed_or_enterFault {i : Instr} {s t : State} (h : exec i s = .next t) :
    Completed i s t ∨ ∃ f, instrBody i s = .error f ∧ t = s.enterFault f :=
  (exec_cases h).imp_left completed_of_instrBody_ok

/-! ## What a finished instruction leaves as it was -/

/-- The registers that are not in the third column of the instruction's row (10_state.md R23). -/
theorem Completed.reg_of_not_written {i : Instr} {s t : State} (h : Completed i s t) {j : RegIdx}
    (hj : ¬ writtenRegisters i j) : t.reg j = s.reg j := by
  cases h with
  | ldi | mul | add => exact State.reg_writeReg_other _ _ fun hji => hj (hji ▸ rfl)
  | push | call | ret => exact State.reg_writeReg_other _ _ hj
  | pop =>
    obtain ⟨hi, hsp⟩ := not_or.mp hj
    exact (State.reg_writeReg_other _ _ hsp).trans (State.reg_writeReg_other _ _ fun hji => hi (hji ▸ rfl))
  | hlt | prn | cmp | jmp | jeqTaken | jeqNotTaken | jneTaken | jneNotTaken => rfl

theorem Completed.flags_of_not_cmp {i : Instr} {s t : State} (h : Completed i s t) (hi : ∀ a b, i ≠ .cmp a b) :
    t.flags = s.flags := by
  cases h with
  | cmp => exact absurd rfl (hi _ _)
  | _ => rfl

theorem Completed.output {i : Instr} {s t : State} (h : Completed i s t) :
    t.output = s.output ∨ ∃ r v, i = .prn (regByte r) ∧ Holds s r v ∧ t.output = s.output ++ [v] := by
  cases h with
  | prn hv => exact .inr ⟨_, _, rfl, hv, rfl⟩
  | _ => exact .inl rfl

/-- A flag of `f` that is set is set in `g` (10_state.md R33). -/
def Flags.SetIn (f g : Flags) : Prop := (f.e = true → g.e = true) ∧ (f.g = true → g.g = true) ∧ (f.l = true → g.l = true)

theorem Flags.SetIn.refl (f : Flags) : f.SetIn f := ⟨id, id, id⟩

theorem Flags.setIn_mark (f : Flags) (c : Comparison) : f.SetIn (f.mark c) := by
  cases c <;> simp [Flags.SetIn, Flags.mark]

theorem Completed.flags_setIn {i : Instr} {s t : State} (h : Completed i s t) : s.flags.SetIn t.flags := by
  cases h with
  | cmp => exact Flags.setIn_mark _ _
  | _ => exact .refl _

theorem State.defined_writeReg {s : State} {j : RegIdx} (i : RegIdx) (v : Byte) (h : (s.reg j).defined = true) :
    ((s.writeReg i v).reg j).defined = true := by
  rw [State.reg_writeReg]
  split
  · rfl
  · exact h

theorem Memory.isSome_read?_write {m : Memory} {a : Nat} (b : Nat) (v : Byte) (h : (Memory.read? m a).isSome) :
    (Memory.read? (Memory.write m b v) a).isSome := by
  by_cases hab : a = b
  · subst hab; simp
  · simpa [hab] using h

theorem Completed.reg_defined {i : Instr} {s t : State} (h : Completed i s t) {j : RegIdx}
    (hj : (s.reg j).defined = true) : (t.reg j).defined = true := by
  cases h with
  | ldi | mul | add | push | call | ret => exact State.defined_writeReg _ _ hj
  | pop => exact State.defined_writeReg _ _ (State.defined_writeReg _ _ hj)
  | hlt | prn | cmp | jmp | jeqTaken | jeqNotTaken | jneTaken | jneNotTaken => exact hj

theorem Completed.cell_defined {i : Instr} {s t : State} (h : Completed i s t) {a : Nat}
    (ha : (Memory.read? s.mem a).isSome) : (Memory.read? t.mem a).isSome := by
  cases h with
  | push | call => exact Memory.isSome_read?_write _ _ ha
  | _ => exact ha

theorem Completed.mem_wf {i : Instr} {s t : State} (h : Completed i s t) (hm : Memory.wf s.mem) : Memory.wf t.mem := by
  cases h with
  | push | call => exact Memory.wf_write hm (BitVec.isLt _)
  | _ => exact hm

/-- The pc moves past the instruction, to an 8-bit target, or (HLT) not at all (10_state.md R29). -/
theorem Completed.pc {i : Instr} {s t : State} (h : Completed i s t) :
    t.pc = s.pc + BitVec.ofNat 9 i.length ∨ (∃ v : Byte, t.pc = v.setWidth 9) ∨ t.pc = s.pc := by
  cases h with
  | hlt => exact .inr (.inr rfl)
  | call | ret | jmp | jeqTaken | jneTaken => exact .inr (.inl ⟨_, rfl⟩)
  | ldi | prn | mul | cmp | push | pop | jeqNotTaken | jneNotTaken | add => exact .inl rfl

theorem Completed.fault {i : Instr} {s t : State} (h : Completed i s t) : t.fault = s.fault := by
  cases h <;> rfl

theorem Completed.status {i : Instr} {s t : State} (h : Completed i s t) :
    t.status = s.status ∨ i = .hlt ∧ t.status = .halted := by
  cases h with
  | hlt => exact .inr ⟨rfl, rfl⟩
  | _ => exact .inl rfl

end Sys2Proof.Machine
end

section
/-! PROOFS. Two runs of one instruction, from states that differ only where the instruction does not look: they go
alike. The noninterference statements (10_state.md R23, R32, R40) are this one argument, each with its own relation
between the two states. -/

namespace Sys2Proof.Machine

open Sys2Proof.Certificates

/-! ## Computations that go alike -/

/-- The cause codes a step can raise (60_exceptions.md R183). -/
def stepCodes : List (BitVec 4) := [1, 3, 4, 5, 6, 7, 8]

/-- Both computations finish, with results that `R` relates, or both raise one fault, whose cause a step can raise. -/
inductive Alike {α : Type} (R : α → α → Prop) : Except Fault α → Except Fault α → Prop
  | ok {a b} (h : R a b) : Alike R (.ok a) (.ok b)
  | error {f : Fault} (h : f.code ∈ stepCodes) : Alike R (.error f) (.error f)

/-- Computations that answer the same go on alike if what follows them does. -/
theorem Alike.bind {α β : Type} {R : β → β → Prop} {x y : Except Fault α} {f g : α → Except Fault β}
    (hxy : Alike Eq x y) (hfg : ∀ a, x = .ok a → Alike R (f a) (g a)) : Alike R (x >>= f) (y >>= g) := by
  cases hxy with
  | ok h => subst h; exact hfg _ rfl
  | error h => exact .error h

theorem Alike.eq {α : Type} {x y : Except Fault α} (h : Alike Eq x y) : x = y := by
  cases h with
  | ok h => rw [h]
  | error => rfl

theorem Alike.code_of_error {α : Type} {R : α → α → Prop} {x y : Except Fault α} {f : Fault} (h : Alike R x y)
    (hx : x = .error f) : f.code ∈ stepCodes := by
  cases h with
  | ok => cases hx
  | error h => cases hx; exact h

/-! ## The operations that read -/

theorem regOperand_alike (o : Byte) : Alike Eq (regOperand o) (regOperand o) := by
  unfold regOperand
  split
  · exact .ok rfl
  · exact .error (by simp [Fault.code, stepCodes])

theorem regOperands_alike (a b : Byte) : Alike Eq (regOperands a b) (regOperands a b) :=
  (regOperand_alike a).bind fun _ _ => (regOperand_alike b).bind fun _ _ => .ok rfl

theorem State.readReg_alike {s t : State} {i : RegIdx} (h : s.readReg i = t.readReg i) :
    Alike Eq (s.readReg i) (t.readReg i) := by
  rw [← h]
  unfold State.readReg
  split
  · exact .ok rfl
  · exact .error (by simp [Fault.code, stepCodes])

theorem State.memRead_alike {s t : State} {a : Nat} (h : s.memRead a = t.memRead a) :
    Alike Eq (s.memRead a) (t.memRead a) := by
  rw [← h]
  unfold State.memRead
  split
  · exact .error (by simp [Fault.code, stepCodes])
  · split
    · exact .error (by simp [Fault.code, stepCodes])
    · exact .ok rfl

theorem State.spForPush_alike {s t : State} (h : s.readReg spIdx = t.readReg spIdx) :
    Alike Eq s.spForPush t.spForPush := by
  refine (State.readReg_alike h).bind fun sp _ => ?_
  split
  · exact .error (by simp [Fault.code, stepCodes])
  · exact .ok rfl

theorem State.spAfterPop_alike {s t : State} (h : s.readReg spIdx = t.readReg spIdx) :
    Alike Eq s.spAfterPop t.spAfterPop := by
  refine (State.readReg_alike h).bind fun sp _ => ?_
  split
  · exact .error (by simp [Fault.code, stepCodes])
  · exact .ok rfl

/-! ## Relations between states that the operations keep -/

/-- `R` relates states of one pc, and goes on to hold whatever operation is done to both. -/
structure KeptByOps (R : State → State → Prop) : Prop where
  samePc     : ∀ {s t}, R s t → s.pc = t.pc
  writeReg   : ∀ {s t} i v, R s t → R (s.writeReg i v) (t.writeReg i v)
  store      : ∀ {s t} a v, R s t → R (s.store a v) (t.store a v)
  emit       : ∀ {s t} v, R s t → R (s.emit v) (t.emit v)
  compare    : ∀ {s t} x y, R s t →
    R (s.setFlags (flagsAfterCmp cmpPolicy x y s.flags)) (t.setFlags (flagsAfterCmp cmpPolicy x y t.flags))
  advance    : ∀ {s t} n, R s t → R (s.advance n) (t.advance n)
  jump       : ∀ {s t} v, R s t → R (s.jump v) (t.jump v)
  halt       : ∀ {s t}, R s t → R s.halt t.halt
  enterFault : ∀ {s t} f, R s t → R (s.enterFault f) (t.enterFault f)

/-- States that `R` relates give the same answer when register k is read. -/
def SameReads (R : State → State → Prop) (k : RegIdx) : Prop := ∀ s t, R s t → s.readReg k = t.readReg k

/-- Instruction i, executed in `s` and in `t`, reads the same: every register of its row (10_state.md R23), also after
writes that keep `R`; the Equal flag, if it is JEQ or JNE (R32); the byte at SP, if it is POP or RET (20_memory.md
R54). -/
structure ReadsAlike (R : State → State → Prop) (i : Instr) (s t : State) : Prop where
  regs : ∀ k, readRegisters s.flags.e i k → SameReads R k
  flag : (∃ r, i = .jeq r ∨ i = .jne r) → s.flags.e = t.flags.e
  cell : (i = .ret ∨ ∃ r, i = .pop r) → ∀ sp, Holds s spIdx sp → s.memRead sp.toNat = t.memRead sp.toNat

/-! ## The bodies go alike -/

section Bodies

variable {R : State → State → Prop} {s t : State}

theorem aluBody_alike (hR : KeptByOps R) (hst : R s t) {op : Byte → Byte → Byte} {a b : Byte}
    (ha : ∀ k, a = regByte k → SameReads R k) (hb : ∀ k, b = regByte k → SameReads R k) :
    Alike R (aluBody op a b s) (aluBody op a b t) := by
  refine (regOperands_alike a b).bind fun ⟨i, j⟩ hij => ?_
  obtain ⟨hi, hj⟩ := regOperands_ok_iff.mp hij
  refine (State.readReg_alike (ha i hi s t hst)).bind fun x _ => ?_
  refine (State.readReg_alike (hb j hj s t hst)).bind fun y _ => ?_
  exact .ok (hR.advance 3 (hR.writeReg i (op x y) hst))

theorem cmpBody_alike (hR : KeptByOps R) (hst : R s t) {a b : Byte}
    (ha : ∀ k, a = regByte k → SameReads R k) (hb : ∀ k, b = regByte k → SameReads R k) :
    Alike R (cmpBody a b s) (cmpBody a b t) := by
  refine (regOperands_alike a b).bind fun ⟨i, j⟩ hij => ?_
  obtain ⟨hi, hj⟩ := regOperands_ok_iff.mp hij
  refine (State.readReg_alike (ha i hi s t hst)).bind fun x _ => ?_
  refine (State.readReg_alike (hb j hj s t hst)).bind fun y _ => ?_
  exact .ok (hR.advance 3 (hR.compare x y hst))

theorem ldiBody_alike (hR : KeptByOps R) (hst : R s t) (r imm : Byte) : Alike R (ldiBody r imm s) (ldiBody r imm t) :=
  (regOperand_alike r).bind fun i _ => .ok (hR.advance 3 (hR.writeReg i imm hst))

theorem prnBody_alike (hR : KeptByOps R) (hst : R s t) {r : Byte} (hr : ∀ k, r = regByte k → SameReads R k) :
    Alike R (prnBody r s) (prnBody r t) := by
  refine (regOperand_alike r).bind fun i hi => ?_
  refine (State.readReg_alike (hr i (regOperand_ok_iff.mp hi) s t hst)).bind fun v _ => ?_
  exact .ok (hR.advance 2 (hR.emit v hst))

theorem jumpIfBody_alike (hR : KeptByOps R) (hst : R s t) {taken : Bool} {r : Byte}
    (hr : ∀ k, taken = true → r = regByte k → SameReads R k) :
    Alike R (jumpIfBody taken r s) (jumpIfBody taken r t) := by
  refine (regOperand_alike r).bind fun i hi => ?_
  cases taken with
  | false => exact .ok (hR.advance 2 hst)
  | true =>
    refine (State.readReg_alike (hr i rfl (regOperand_ok_iff.mp hi) s t hst)).bind fun v _ => ?_
    exact .ok (hR.jump v hst)

theorem pushBody_alike (hR : KeptByOps R) (hst : R s t) {r : Byte} (hsp : SameReads R spIdx)
    (hr : ∀ k, r = regByte k → SameReads R k) : Alike R (pushBody r s) (pushBody r t) := by
  refine (regOperand_alike r).bind fun i hi => ?_
  refine (State.spForPush_alike (hsp s t hst)).bind fun sp _ => ?_
  have hst₁ := hR.writeReg spIdx (pushAddress sp) hst
  refine (State.readReg_alike (hr i (regOperand_ok_iff.mp hi) _ _ hst₁)).bind fun v _ => ?_
  rw [State.memWrite_byte, State.memWrite_byte]
  exact .ok (hR.advance 2 (hR.store _ v hst₁))

theorem callBody_alike (hR : KeptByOps R) (hst : R s t) {r : Byte} (hsp : SameReads R spIdx)
    (hr : ∀ k, r = regByte k → SameReads R k) : Alike R (callBody r s) (callBody r t) := by
  refine (regOperand_alike r).bind fun i hi => ?_
  refine (State.spForPush_alike (hsp s t hst)).bind fun sp _ => ?_
  have hra : returnAddress s = returnAddress t := by rw [returnAddress, returnAddress, hR.samePc hst]
  rw [hra]
  dsimp only
  split
  · exact .error (by simp [Fault.code, stepCodes])
  · have hst₂ := hR.store (pushAddress sp).toNat (BitVec.ofNat 8 (returnAddress t))
      (hR.writeReg spIdx (pushAddress sp) hst)
    rw [State.memWrite_byte, State.memWrite_byte]
    refine (State.readReg_alike (hr i (regOperand_ok_iff.mp hi) _ _ hst₂)).bind fun v _ => ?_
    exact .ok (hR.jump v hst₂)

theorem popBody_alike (hR : KeptByOps R) (hst : R s t) (r : Byte) (hsp : SameReads R spIdx)
    (hcell : ∀ sp, Holds s spIdx sp → s.memRead sp.toNat = t.memRead sp.toNat) :
    Alike R (popBody r s) (popBody r t) := by
  refine (regOperand_alike r).bind fun i _ => ?_
  refine (State.readReg_alike (hsp s t hst)).bind fun sp hs => ?_
  refine (State.memRead_alike (hcell sp (State.readReg_ok_iff.mp hs))).bind fun v _ => ?_
  have hst₁ := hR.writeReg i v hst
  refine (State.spAfterPop_alike (hsp _ _ hst₁)).bind fun sp' _ => ?_
  exact .ok (hR.advance 2 (hR.writeReg spIdx sp' hst₁))

theorem retBody_alike (hR : KeptByOps R) (hst : R s t) (hsp : SameReads R spIdx)
    (hcell : ∀ sp, Holds s spIdx sp → s.memRead sp.toNat = t.memRead sp.toNat) : Alike R (retBody s) (retBody t) := by
  refine (State.readReg_alike (hsp s t hst)).bind fun sp hs => ?_
  refine (State.memRead_alike (hcell sp (State.readReg_ok_iff.mp hs))).bind fun v _ => ?_
  refine (State.spAfterPop_alike (hsp s t hst)).bind fun sp' _ => ?_
  exact .ok (hR.jump v (hR.writeReg spIdx sp' hst))

/-- An instruction that reads the same in two related states has alike bodies there. -/
theorem instrBody_alike (hR : KeptByOps R) (hst : R s t) {i : Instr} (h : ReadsAlike R i s t) :
    Alike R (instrBody i s) (instrBody i t) := by
  obtain ⟨hregs, hflag, hcell⟩ := h
  cases i with
  | hlt => exact .ok (hR.halt hst)
  | ldi r imm => exact ldiBody_alike hR hst r imm
  | prn r => exact prnBody_alike hR hst hregs
  | mul a b | add a b => exact aluBody_alike hR hst (fun k hk => hregs k (.inl hk)) fun k hk => hregs k (.inr hk)
  | cmp a b => exact cmpBody_alike hR hst (fun k hk => hregs k (.inl hk)) fun k hk => hregs k (.inr hk)
  | push r => exact pushBody_alike hR hst (hregs _ (.inl rfl)) fun k hk => hregs k (.inr hk)
  | call r => exact callBody_alike hR hst (hregs _ (.inl rfl)) fun k hk => hregs k (.inr hk)
  | pop r => exact popBody_alike hR hst r (hregs _ rfl) (hcell (.inr ⟨r, rfl⟩))
  | ret => exact retBody_alike hR hst (hregs _ rfl) (hcell (.inl rfl))
  | jmp r => exact jumpIfBody_alike hR hst fun k _ hk => hregs k hk
  | jeq r =>
    have he := hflag ⟨r, .inl rfl⟩
    simp only [instrBody, ← he]
    exact jumpIfBody_alike hR hst fun k htaken hk => hregs k ⟨htaken, hk⟩
  | jne r =>
    have he := hflag ⟨r, .inr rfl⟩
    simp only [instrBody, ← he]
    exact jumpIfBody_alike hR hst fun k htaken hk => hregs k ⟨by simpa using htaken, hk⟩

/-- Commits of alike bodies: both finish, or both enter the same fault from the states they started in. -/
theorem commit_alike (hR : KeptByOps R) (hst : R s t) {x y : Except Fault State} (hxy : Alike R x y) {s' : State}
    (hs : commit s x = .next s') : ∃ t', commit t y = .next t' ∧ R s' t' := by
  cases hxy with
  | ok h => cases hs; exact ⟨_, rfl, h⟩
  | error h => cases hs; exact ⟨_, rfl, hR.enterFault _ hst⟩

/-- An instruction that reads the same in two related states leads to related states. -/
theorem exec_alike (hR : KeptByOps R) (hst : R s t) {i : Instr} (h : ReadsAlike R i s t) {s' : State}
    (hs : exec i s = .next s') : ∃ t', exec i t = .next t' ∧ R s' t' := by
  rw [exec_eq_commit] at hs ⊢
  exact commit_alike hR hst (instrBody_alike hR hst h) hs

end Bodies

theorem keptByOps_eq : KeptByOps (Eq : State → State → Prop) where
  samePc h := h ▸ rfl
  writeReg _ _ h := h ▸ rfl
  store _ _ h := h ▸ rfl
  emit _ h := h ▸ rfl
  compare _ _ h := h ▸ rfl
  advance _ h := h ▸ rfl
  jump _ h := h ▸ rfl
  halt h := h ▸ rfl
  enterFault _ h := h ▸ rfl

/-- An instruction raises only what a step can raise: its body goes alike with itself. -/
theorem instrBody_error_code {i : Instr} {s : State} {f : Fault} (h : instrBody i s = .error f) :
    f.code ∈ stepCodes :=
  (instrBody_alike keptByOps_eq (rfl : s = s)
    ⟨fun _ _ _ _ hst => by rw [hst], fun _ => rfl, fun _ _ _ => rfl⟩).code_of_error h

end Sys2Proof.Machine
end

section
/-! PROOFS. What a fetch and a step do (40_execution_loop.md R101 to R109): where the fetched bytes lie, what a fetch
depends on, and the codes a step can raise. -/

namespace Sys2Proof

theorem Format.operandCount_le (f : Format) : f.operandCount ≤ 2 := by cases f <;> decide

end Sys2Proof

namespace Sys2Proof.Machine

theorem State.operandByte_alike {s t : State} (n k : Nat) (hpc : s.pc = t.pc)
    (hmem : ∀ a, s.memRead a = t.memRead a) : Alike Eq (s.operandByte n k) (t.operandByte n k) := by
  unfold State.operandByte
  split
  · rw [hpc]; exact State.memRead_alike (hmem _)
  · exact .ok rfl

/-- A fetch looks at nothing but the pc and the cells. -/
theorem State.fetchInstr_alike {s t : State} (m : OpcodeMap) (hpc : s.pc = t.pc)
    (hmem : ∀ a, s.memRead a = t.memRead a) : Alike Eq (s.fetchInstr m) (t.fetchInstr m) := by
  unfold State.fetchInstr
  rw [hpc]
  refine (State.memRead_alike (hmem _)).bind fun op _ => ?_
  split
  · exact .error (by simp [Fault.code, stepCodes])
  · next k _ =>
    refine (State.operandByte_alike _ 1 hpc hmem).bind fun o1 _ => ?_
    refine (State.operandByte_alike _ 2 hpc hmem).bind fun o2 _ => ?_
    dsimp only
    split
    · exact .error (by simp [Fault.code, stepCodes])
    · exact .ok rfl

/-- Everything a finished fetch did: it read the opcode byte and the operand bytes of its mnemonic, and bound them to a
well-formed instruction. -/
theorem State.fetchInstr_ok {m : OpcodeMap} {s : State} {i : Instr} (h : s.fetchInstr m = .ok i) :
    ∃ op k o1 o2, s.memRead s.pc.toNat = .ok op ∧ m.mnemonic? op = some k ∧
      s.operandByte k.format.operandCount 1 = .ok o1 ∧ s.operandByte k.format.operandCount 2 = .ok o2 ∧
      i = k.bindOperands o1 o2 ∧ i.WellFormed := by
  unfold State.fetchInstr at h
  obtain ⟨op, hop, h⟩ := bind_eq_ok.mp h
  split at h
  · cases h
  · next k hk =>
    obtain ⟨o1, ho1, h⟩ := bind_eq_ok.mp h
    obtain ⟨o2, ho2, h⟩ := bind_eq_ok.mp h
    dsimp only at h
    split at h
    · cases h
    · next hbad =>
      cases h
      exact ⟨op, k, o1, o2, hop, hk, ho1, ho2, rfl, Instr.badRegister?_eq_none.mp hbad⟩

theorem State.le_of_operandByte_ok {s : State} {n k : Nat} {o : Byte} (h : s.operandByte n k = .ok o) (hk : k ≤ n) :
    s.pc.toNat + k ≤ 255 := by
  rw [State.operandByte, if_pos hk] at h
  exact (State.memRead_ok_iff.mp h).1

/-- The bytes of a fetched instruction all lie at addresses up to 255 (10_state.md R28). -/
theorem State.length_le_of_fetchInstr_ok {m : OpcodeMap} {s : State} {i : Instr} (h : s.fetchInstr m = .ok i) :
    s.pc.toNat + i.length ≤ 256 := by
  obtain ⟨op, k, o1, o2, hop, -, ho1, ho2, rfl, -⟩ := State.fetchInstr_ok h
  have hpc := (State.memRead_ok_iff.mp hop).1
  have h1 := State.le_of_operandByte_ok ho1
  have h2 := State.le_of_operandByte_ok ho2
  have hcount := k.format.operandCount_le
  rw [Instr.length, Mnemonic.bindOperands_mnemonic, Mnemonic.length]
  omega

theorem stepWith_of_not_running {m : OpcodeMap} {s : State} (h : s.status ≠ .running) : stepWith m s = .next s := by
  unfold stepWith
  split
  · next hr => exact absurd hr h
  · rfl
  · rfl
  · rfl

/-- Everything a step can do: none is taken, the fetched instruction finishes, or a fault is entered, whose cause a
step can raise. -/
theorem stepWith_cases {m : OpcodeMap} {s t : State} (h : stepWith m s = .next t) :
    (s.status ≠ .running ∧ t = s) ∨ (s.status = .running ∧ ∃ i, s.fetchInstr m = .ok i ∧ Completed i s t) ∨
      (s.status = .running ∧ ∃ f, f.code ∈ stepCodes ∧ t = s.enterFault f) := by
  by_cases hr : s.status = .running
  · refine .inr ?_
    rcases stepWith_running_cases hr h with ⟨i, hf, hi⟩ | ⟨f, hf, ht⟩
    · rcases completed_or_enterFault hi with hc | ⟨f, hbody, ht⟩
      · exact .inl ⟨hr, i, hf, hc⟩
      · exact .inr ⟨hr, f, instrBody_error_code hbody, ht⟩
    · exact .inr ⟨hr, f, (State.fetchInstr_alike m rfl fun _ => rfl).code_of_error hf, ht⟩
  · rw [stepWith_of_not_running hr] at h
    cases h
    exact .inl ⟨hr, rfl⟩

end Sys2Proof.Machine
end

section
/-! PROOFS. Noninterference: what an instruction reads of the flags and of the registers, and what the host sees
(10_state.md R23, R32, R40). -/

namespace Sys2Proof.Machine

open Sys2Proof.Certificates

/-! ## States that agree on all but one register -/

/-- A register that looks the same in two states still does after a write to both, whatever `look` looks at. -/
theorem State.reg_writeReg_congr {α : Type} {look : Reg → α} {s t : State} {k : RegIdx} (i : RegIdx) (v : Byte)
    (h : look (s.reg k) = look (t.reg k)) : look ((s.writeReg i v).reg k) = look ((t.writeReg i v).reg k) := by
  rw [State.reg_writeReg, State.reg_writeReg]
  split
  · rfl
  · exact h

theorem keptByOps_agreeBut (j : RegIdx) : KeptByOps (AgreeBut j) where
  samePc := fun ⟨_, hpc, _⟩ => hpc
  writeReg := fun _ _ ⟨hreg, h⟩ => ⟨fun k hk => State.reg_writeReg_congr (look := id) _ _ (hreg k hk), h⟩
  store := fun a v ⟨hreg, hpc, hflags, hstatus, hfault, houtput, hmem⟩ =>
    ⟨hreg, hpc, hflags, hstatus, hfault, houtput, congrArg (Memory.write · a v) hmem⟩
  emit := fun v ⟨hreg, hpc, hflags, hstatus, hfault, houtput, hmem⟩ =>
    ⟨hreg, hpc, hflags, hstatus, hfault, congrArg (· ++ [v]) houtput, hmem⟩
  compare := fun x y ⟨hreg, hpc, hflags, hrest⟩ =>
    ⟨hreg, hpc, congrArg (flagsAfterCmp cmpPolicy x y) hflags, hrest⟩
  advance := fun n ⟨hreg, hpc, hrest⟩ => ⟨hreg, congrArg (· + BitVec.ofNat 9 n) hpc, hrest⟩
  jump := fun _ ⟨hreg, _, hrest⟩ => ⟨hreg, rfl, hrest⟩
  halt := fun ⟨hreg, hpc, hflags, _, hrest⟩ => ⟨hreg, hpc, hflags, rfl, hrest⟩
  enterFault := fun f ⟨hreg, hpc, hflags, _, _, hrest⟩ =>
    ⟨hreg, hpc, hflags, rfl, congrArg (FaultRecord.mk f.code · f.info) hpc, hrest⟩

theorem sameReads_agreeBut {j k : RegIdx} (hk : k ≠ j) : SameReads (AgreeBut j) k :=
  fun s t ⟨hreg, _⟩ => by rw [State.readReg, State.readReg, hreg k hk]

theorem agreeBut_writeReg (s : State) (j : RegIdx) (v : Byte) : AgreeBut j s (s.writeReg j v) :=
  ⟨fun _ hk => (State.reg_writeReg_other s v hk).symm, rfl, rfl, rfl, rfl, rfl, rfl⟩

theorem agreeBut_symm {j : RegIdx} {s t : State} (h : AgreeBut j s t) : AgreeBut j t s := by
  obtain ⟨hreg, hpc, hflags, hstatus, hfault, houtput, hmem⟩ := h
  exact ⟨fun k hk => (hreg k hk).symm, hpc.symm, hflags.symm, hstatus.symm, hfault.symm, houtput.symm, hmem.symm⟩

/-- Settles O39: the register written before is not in the instruction's row, so its body reads the same. -/
theorem unreadRegistersDoNotMatter : Obligations.UnreadRegistersDoNotMatter := by
  intro i s t j v hj ht
  have hreads : ReadsAlike (AgreeBut j) i s (s.writeReg j v) :=
    ⟨fun k hk => sameReads_agreeBut fun hkj => hj (hkj ▸ hk), fun _ => rfl, fun _ _ _ => rfl⟩
  obtain ⟨t', ht', h⟩ := exec_alike (keptByOps_agreeBut j) (agreeBut_writeReg s j v) hreads ht
  exact ⟨t', ht', agreeBut_symm h⟩

/-! ## States that differ in their flags -/

/-- `t` is `s` with other flags. -/
def SameButFlags (s t : State) : Prop := ∃ f, t = { s with flags := f }

theorem keptByOps_sameButFlags : KeptByOps SameButFlags where
  samePc := by rintro s _ ⟨f, rfl⟩; rfl
  writeReg := by rintro s _ i v ⟨f, rfl⟩; exact ⟨f, rfl⟩
  store := by rintro s _ a v ⟨f, rfl⟩; exact ⟨f, rfl⟩
  emit := by rintro s _ v ⟨f, rfl⟩; exact ⟨f, rfl⟩
  compare := by rintro s _ x y ⟨f, rfl⟩; exact ⟨_, rfl⟩
  advance := by rintro s _ n ⟨f, rfl⟩; exact ⟨f, rfl⟩
  jump := by rintro s _ v ⟨f, rfl⟩; exact ⟨f, rfl⟩
  halt := by rintro s _ ⟨f, rfl⟩; exact ⟨f, rfl⟩
  enterFault := by rintro s _ c ⟨f, rfl⟩; exact ⟨f, rfl⟩

theorem sameReads_sameButFlags (k : RegIdx) : SameReads SameButFlags k := by rintro s _ ⟨f, rfl⟩; rfl

theorem flags_of_exec_not_cmp {i : Instr} {s t : State} (h : exec i s = .next t) (hi : ∀ a b, i ≠ .cmp a b) :
    t.flags = s.flags := by
  rcases completed_or_enterFault h with hc | ⟨f, -, rfl⟩
  · exact hc.flags_of_not_cmp hi
  · rfl

/-- Settles O35: every shape of a finished instruction but CMP's leaves the flags, and a body reads none of them but E
in JEQ and JNE. -/
theorem flagsAreWrittenByCmpAndReadByJeqJne : Obligations.FlagsAreWrittenByCmpAndReadByJeqJne := by
  refine ⟨rfl, fun i s t ht hi => flags_of_exec_not_cmp ht hi, fun i s t f hf ht => ?_, fun _ => rfl⟩
  have hreads : ReadsAlike SameButFlags i s { s with flags := f } :=
    ⟨fun k _ => sameReads_sameButFlags k, fun hi => (hf hi).symm, fun _ _ _ => rfl⟩
  obtain ⟨t', ht', f', rfl⟩ := exec_alike keptByOps_sameButFlags ⟨f, rfl⟩ hreads ht
  exact ⟨_, ht', rfl, fun hi => flags_of_exec_not_cmp ht' hi⟩

/-! ## States the host reads alike -/

/-- The host reads the two states alike (10_state.md R38). -/
def SameView (s t : State) : Prop := s.view = t.view

theorem sameView_iff {s t : State} : SameView s t ↔ (∀ i, (s.reg i).shown = (t.reg i).shown) ∧ s.pc = t.pc ∧
    s.flags = t.flags ∧ (∀ a < 256, Memory.read? s.mem a = Memory.read? t.mem a) ∧ s.status = t.status ∧
    s.fault = t.fault ∧ s.output = t.output := by
  simp [SameView, State.view, List.map_inj_left]

theorem Memory.read?_write_congr {m m' : Memory} {b : Nat} (a : Nat) (v : Byte)
    (h : Memory.read? m b = Memory.read? m' b) :
    Memory.read? (Memory.write m a v) b = Memory.read? (Memory.write m' a v) b := by
  by_cases hb : b = a
  · subst hb; simp
  · simpa [hb] using h

theorem keptByOps_sameView : KeptByOps SameView where
  samePc h := congrArg View.pc h
  writeReg i v h := by
    obtain ⟨hreg, hrest⟩ := sameView_iff.mp h
    exact sameView_iff.mpr ⟨fun k => State.reg_writeReg_congr i v (hreg k), hrest⟩
  store a v h := by
    obtain ⟨hreg, hpc, hflags, hmem, hrest⟩ := sameView_iff.mp h
    exact sameView_iff.mpr ⟨hreg, hpc, hflags, fun b hb => Memory.read?_write_congr a v (hmem b hb), hrest⟩
  emit v h := (congrArg (fun w : View => { w with output := w.output ++ [v] }) h :)
  compare x y h := (congrArg (fun w : View => { w with flags := flagsAfterCmp cmpPolicy x y w.flags }) h :)
  advance n h := (congrArg (fun w : View => { w with pc := w.pc + BitVec.ofNat 9 n }) h :)
  jump v h := (congrArg (fun w : View => { w with pc := v.setWidth 9 }) h :)
  halt h := (congrArg (fun w : View => { w with status := .halted }) h :)
  enterFault f h := (congrArg (fun w : View =>
    { w with status := .faulted, fault := { cause := f.code, pc := w.pc, info := f.info } }) h :)

/-- A read asks for the tag and, under a set one, the value: what the debug view shows. -/
theorem State.readReg_eq_shown (s : State) (i : RegIdx) :
    s.readReg i = ((s.reg i).shown.elim (.error (.uninitReg i)) .ok) := by
  unfold State.readReg Reg.shown
  split <;> rfl

theorem SameView.readReg {s t : State} (h : SameView s t) (i : RegIdx) : s.readReg i = t.readReg i := by
  obtain ⟨hreg, -⟩ := sameView_iff.mp h
  rw [State.readReg_eq_shown, State.readReg_eq_shown, hreg i]

theorem SameView.memRead {s t : State} (h : SameView s t) (a : Nat) : s.memRead a = t.memRead a := by
  obtain ⟨-, -, -, hmem, -⟩ := sameView_iff.mp h
  unfold State.memRead
  split
  · rfl
  · rw [hmem a (by omega)]

theorem SameView.readsAlike {s t : State} (h : SameView s t) (i : Instr) : ReadsAlike SameView i s t :=
  ⟨fun k _ _ _ h' => h'.readReg k, fun _ => congrArg (·.flags.e) h, fun _ _ _ => h.memRead _⟩

/-- Settles O50: what a step reads of a register or a cell is what the debug view shows, so states of the same view
fetch the same instruction, which goes alike in both. -/
theorem undefinedValuesAreNeverSeen : Obligations.UndefinedValuesAreNeverSeen := by
  intro m s s' t (hview : SameView s s') ht
  have hstatus : s.status = s'.status := congrArg View.status hview
  by_cases hr : s.status = .running
  · have hr' := hstatus ▸ hr
    have hfetch := (State.fetchInstr_alike m (congrArg View.pc hview) hview.memRead).eq
    rcases stepWith_running_cases hr ht with ⟨i, hi, hexec⟩ | ⟨f, hf, rfl⟩
    · obtain ⟨t', ht', h⟩ := exec_alike keptByOps_sameView hview (hview.readsAlike i) hexec
      exact ⟨t', stepWith_of_fetch_ok hr' (hfetch ▸ hi) ▸ ht', h.symm⟩
    · exact ⟨_, stepWith_of_fetch_error hr' (hfetch ▸ hf), (keptByOps_sameView.enterFault f hview).symm⟩
  · rw [stepWith_of_not_running hr] at ht
    cases ht
    exact ⟨s', stepWith_of_not_running (hstatus ▸ hr), hview.symm⟩

end Sys2Proof.Machine
end

section
/-! PROOFS. What every instruction and every step keeps (10_state.md R23, R24, R33, R39), and the machine's invariant
(R26, R28, R35; 20_memory.md R50), from the shapes of a finished instruction. -/

namespace Sys2Proof.Machine

open Sys2Proof.Certificates

/-! ## Frames of one instruction -/

/-- Settles O38: a finished instruction writes the registers of its row, and a fault entry writes none. -/
theorem otherRegistersAreUnchanged : Obligations.OtherRegistersAreUnchanged := by
  intro i s t h j hj
  rcases completed_or_enterFault h with hc | ⟨f, -, rfl⟩
  · exact hc.reg_of_not_written hj
  · rfl

/-- Settles O36: CMP, the one instruction that writes flags, only sets them under the policy `retain`. -/
theorem noInstructionClearsAFlag : Obligations.NoInstructionClearsAFlag := by
  intro i s t h
  rcases completed_or_enterFault h with hc | ⟨f, -, rfl⟩
  · exact hc.flags_setIn
  · exact Flags.SetIn.refl _

/-- Settles O41: of the finished instructions only PRN changes the output, and a fault entry leaves it. -/
theorem onlyPrnEmits : Obligations.OnlyPrnEmits := by
  intro i s t h
  rcases completed_or_enterFault h with hc | ⟨f, -, rfl⟩
  · exact hc.output
  · exact .inl rfl

/-- Settles O42: a register write defines the register, a store defines the cell, and nothing clears a tag. -/
theorem definedStaysDefined : Obligations.DefinedStaysDefined := by
  intro m s t h
  rcases stepWith_cases h with ⟨-, rfl⟩ | ⟨-, i, -, hc⟩ | ⟨-, f, -, rfl⟩
  · exact ⟨fun _ => id, fun _ => id⟩
  · exact ⟨fun _ => hc.reg_defined, fun _ => hc.cell_defined⟩
  · exact ⟨fun _ => id, fun _ => id⟩

/-! ## Reset -/

theorem reg_reset_spIdx : Holds State.reset spIdx 0xF4 := rfl

theorem reg_reset_other : ∀ i, i ≠ spIdx → Undefined State.reset i := by decide

/-- Settles O1: the reset input answers `State.reset`, whatever the state was. -/
theorem resetLeavesTheStatedValues : Obligations.ResetLeavesTheStatedValues := fun _ =>
  ⟨reg_reset_other, reg_reset_spIdx, rfl, rfl, rfl, rfl, rfl, rfl, rfl, rfl, rfl, fun _ => rfl, rfl, rfl⟩

/-- Settles O47: reset leaves no cell, a defined SP, pc 0 and an empty fault record. -/
theorem resetMeetsTheInvariant : Obligations.ResetMeetsTheInvariant where
  memory := Memory.wf_nil
  sp := congrArg Reg.defined reg_reset_spIdx
  pc := Nat.zero_le _
  record := rfl

/-! ## The invariant -/

/-- The pc stays in range: the next instruction begins at most one byte after the last one read (10_state.md R28), and
a jump goes to an 8-bit target. -/
theorem Completed.pcInRange {i : Instr} {s t : State} (h : Completed i s t) (hs : s.PcInRange)
    (hlen : s.pc.toNat + i.length ≤ 256) : t.PcInRange := by
  unfold State.PcInRange at *
  rcases h.pc with hpc | ⟨v, hpc⟩ | hpc
  · rw [hpc, BitVec.toNat_add, BitVec.toNat_ofNat]
    omega
  · have := v.isLt
    rw [hpc, BitVec.toNat_setWidth]
    omega
  · rwa [hpc]

theorem State.recordMatches_iff_of_not_faulted {s : State} (h : s.status ≠ .faulted) :
    s.RecordMatches ↔ s.fault = FaultRecord.none := iff_of_eq (if_neg h)

theorem Completed.recordMatches {i : Instr} {s t : State} (h : Completed i s t) (hr : s.status = .running)
    (hs : s.RecordMatches) : t.RecordMatches := by
  have hnone := (State.recordMatches_iff_of_not_faulted (by simp [hr])).mp hs
  have hstatus : t.status ≠ .faulted := by rcases h.status with ht | ⟨-, ht⟩ <;> simp [ht, hr]
  exact (State.recordMatches_iff_of_not_faulted hstatus).mpr (h.fault.trans hnone)

theorem Completed.inv {i : Instr} {s t : State} (h : Completed i s t) (hr : s.status = .running)
    (hlen : s.pc.toNat + i.length ≤ 256) (hs : s.Inv) : t.Inv where
  memory := h.mem_wf hs.memory
  sp := h.reg_defined hs.sp
  pc := h.pcInRange hs.pc hlen
  record := h.recordMatches hr hs.record

theorem State.Inv.enterFault {s : State} {f : Fault} (hs : s.Inv) (hf : f.code ∈ stepCodes) : (s.enterFault f).Inv where
  memory := hs.memory
  sp := hs.sp
  pc := hs.pc
  record := by
    rw [State.RecordMatches, if_pos (State.enterFault_status s f)]
    exact (by decide : stepCodes ⊆ [1, 3, 4, 5, 6, 7, 8, 9]) hf

/-- Settles O48: the invariant through each of the three ways a step goes; the fetch bounds the pc. -/
theorem stepKeepsTheInvariant : Obligations.StepKeepsTheInvariant := by
  intro m s t hs h
  rcases stepWith_cases h with ⟨-, rfl⟩ | ⟨hr, i, hi, hc⟩ | ⟨-, f, hf, rfl⟩
  · exact hs
  · exact hc.inv hr (State.length_le_of_fetchInstr_ok hi) hs
  · exact hs.enterFault hf

end Sys2Proof.Machine
end

section
/-! PROOFS. Memory (20_memory.md R50 to R53): what an access answers, and that the canonical form holds no more than
what its reads tell. -/

namespace Sys2Proof.Machine

open Sys2Proof.Certificates

/-! ## What an access answers -/

theorem State.memWrite_of_le {s : State} {a : Nat} (v : Byte) (h : a ≤ 255) : s.memWrite a v = .ok (s.store a v) :=
  if_neg (by omega)

theorem State.memWrite_of_gt {s : State} {a : Nat} (v : Byte) (h : 255 < a) : s.memWrite a v = .error (.memRange a) :=
  if_pos h

theorem State.memRead_of_gt {s : State} {a : Nat} (h : 255 < a) : s.memRead a = .error (.memRange a) := if_pos h

theorem State.memRead_of_undefined {s : State} {a : Nat} (h : a ≤ 255) (hcell : Memory.read? s.mem a = none) :
    s.memRead a = .error (.uninitMem a) := by
  rw [State.memRead, if_neg (by omega), hcell]

theorem State.memRead_store_same (s : State) {a : Nat} (v : Byte) (h : a ≤ 255) : (s.store a v).memRead a = .ok v :=
  State.memRead_ok_iff.mpr ⟨h, Memory.read?_write_same s.mem a v⟩

theorem State.memRead_store_other (s : State) {a b : Nat} (v : Byte) (h : b ≠ a) :
    (s.store a v).memRead b = s.memRead b := by
  rw [State.memRead, State.memRead, State.store_mem, Memory.read?_write_other s.mem v h]

theorem sameMemBut_of_mem_eq_write {s t : State} {a : Nat} {v : Byte} (h : t.mem = Memory.write s.mem a v) :
    SameMemBut [a] s t := fun _ hb => by
  rw [h, Memory.read?_write_other s.mem v (List.ne_of_not_mem_cons hb)]

/-- Settles O16: a write in range is `store`, read back by `memRead_store_same`; out of range the guard raises. -/
theorem memoryReadsAndWrites : Obligations.MemoryReadsAndWrites :=
  ⟨fun s a v h => ⟨s.store a v, State.memWrite_of_le v h, State.memRead_store_same s v h,
      sameMemBut_of_mem_eq_write rfl, rfl⟩,
    fun _ _ _ h hcell => State.memRead_ok_iff.mpr ⟨h, hcell⟩, fun _ _ v h => State.memWrite_of_gt v h,
    fun _ _ h => State.memRead_of_gt h, fun _ _ h hcell => State.memRead_of_undefined h hcell⟩

/-! ## The canonical form -/

/-- With rising addresses no listed cell hides another: a memory lists exactly the cells that can be read. -/
theorem Memory.mem_iff_read? {m : Memory} (h : m.Pairwise fun x y => x.1 < y.1) (c : Host.Cell) :
    c ∈ m ↔ Memory.read? m c.1 = some c.2 := by
  induction m with
  | nil => simp [Memory.read?]
  | cons d m ih =>
    obtain ⟨a, v⟩ := c
    obtain ⟨k, w⟩ := d
    obtain ⟨hk, hm⟩ := List.pairwise_cons.mp h
    rw [List.mem_cons, ih hm, Memory.read?]
    split
    · next hka =>
      subst hka
      have hnot : (k, v) ∉ m := fun hc => absurd (hk _ hc) (Nat.lt_irrefl k)
      rw [ih hm] at hnot
      simp [hnot, eq_comm]
    · next hka => simp [Ne.symm hka]

/-- Settles O17: memories in canonical form that read alike list the same cells, in the one order the form allows. -/
theorem memoriesThatReadAlikeAreEqual : Obligations.MemoriesThatReadAlikeAreEqual := by
  rintro m m' ⟨hm, -⟩ ⟨hm', -⟩ hread
  have hirrefl : Std.Irrefl fun x y : Host.Cell => x.1 < y.1 := ⟨fun _ => Nat.lt_irrefl _⟩
  have hasymm : Std.Antisymm fun x y : Host.Cell => x.1 < y.1 := ⟨fun _ _ h h' => absurd h' (Nat.lt_asymm h)⟩
  exact hm.eq_of_mem_iff hm' fun c => by rw [Memory.mem_iff_read? hm, Memory.mem_iff_read? hm', hread]

end Sys2Proof.Machine
end

section
/-! PROOFS. The fetch and the bytes of memory (20_memory.md R54, R64; 40_execution_loop.md R101 to R104): a fetch sees
what the cells hold, and looks at no cell but those of the instruction. -/

namespace Sys2Proof

theorem OpcodeMap.mnemonic?_hlt (m : OpcodeMap) : m.mnemonic? 0x01 = some .HLT := rfl

/-- The bytes of a bound instruction: its opcode byte and as many operand bytes as its format has (30_encoding.md
R72). -/
theorem encode_bindOperands (m : OpcodeMap) (k : Mnemonic) (o1 o2 : Byte) :
    encode m (k.bindOperands o1 o2) = m.code k :: [o1, o2].take k.format.operandCount := by
  cases k <;> rfl

end Sys2Proof

namespace Sys2Proof.Machine

open Sys2Proof.Certificates

/-! ## Steps told from the opcode byte -/

theorem State.fetchInstr_of_illegal {m : OpcodeMap} {s : State} {op : Byte} (hop : s.memRead s.pc.toNat = .ok op)
    (h : ∀ k, m.code k ≠ op) : s.fetchInstr m = .error (.illegalOpcode op) := by
  rw [State.fetchInstr, hop, ok_bind, OpcodeMap.mnemonic?_eq_none.mpr h]

theorem State.fetchInstr_of_hlt {m : OpcodeMap} {s : State} (hop : s.memRead s.pc.toNat = .ok 0x01) :
    s.fetchInstr m = .ok .hlt := by
  rw [State.fetchInstr, hop, ok_bind, OpcodeMap.mnemonic?_hlt]
  rfl

theorem stepWith_of_illegal {m : OpcodeMap} {s : State} {op : Byte} (hr : s.status = .running)
    (hop : s.memRead s.pc.toNat = .ok op) (h : ∀ k, m.code k ≠ op) :
    stepWith m s = .next (s.enterFault (.illegalOpcode op)) :=
  stepWith_of_fetch_error hr (State.fetchInstr_of_illegal hop h)

theorem stepWith_of_hlt {m : OpcodeMap} {s : State} (hr : s.status = .running)
    (hop : s.memRead s.pc.toNat = .ok 0x01) : stepWith m s = .next s.halt :=
  stepWith_of_fetch_ok hr (State.fetchInstr_of_hlt hop)

/-! ## The byte PUSH or CALL has just stored (20_memory.md R64) -/

/-- After a jump to a defined cell, the opcode fetch gives the byte of that cell. -/
theorem State.memRead_jump_pc {s : State} {a v : Byte} (h : Memory.read? s.mem a.toNat = some v) :
    (s.jump a).memRead (s.jump a).pc.toNat = .ok v := by
  have hpc : (s.jump a).pc.toNat = a.toNat := by rw [State.jump_pc, BitVec.toNat_setWidth_of_le (by decide)]
  rw [hpc]
  exact State.memRead_byte h

/-- PUSH of a defined register other than R7, with SP not 0, finishes and stores the register's byte (43_stack.md
R150). -/
theorem exec_push_stores {s t : State} {r : RegIdx} {sp v : Byte} (hsp : Holds s spIdx sp) (h0 : sp ≠ 0)
    (hr : r ≠ spIdx) (hv : Holds s r v) (h : exec (.push (regByte r)) s = .next t) :
    t.status = s.status ∧ Memory.read? t.mem (pushAddress sp).toNat = some v := by
  have hv' : Holds (s.writeReg spIdx (pushAddress sp)) r v := by rwa [Holds, State.reg_writeReg_other s _ hr]
  rw [exec_eq_commit, instrBody, pushBody_ok_iff.mpr ⟨r, sp, v, rfl, hsp, h0, hv', rfl⟩] at h
  cases h
  exact ⟨rfl, Memory.read?_write_same _ _ _⟩

/-- CALL that raises nothing stores its return address, which fits a byte (44_control.md R160). -/
theorem Completed.call_stores {r sp : Byte} {s t : State} (h : Completed (.call r) s t) (hsp : Holds s spIdx sp) :
    ∃ ra : Byte, ra.toNat = s.pc.toNat + 2 ∧ Memory.read? t.mem (pushAddress sp).toNat = some ra := by
  cases h with
  | call hsp' _ hra =>
    cases hsp.symm.trans hsp'
    have hfits : (BitVec.ofNat 8 (returnAddress s)).toNat = returnAddress s := Nat.mod_eq_of_lt (Nat.lt_succ_of_le hra)
    exact ⟨_, hfits, Memory.read?_write_same _ _ _⟩

/-- Settles O18: the stored byte is the opcode byte the next fetch at its address reads. -/
theorem fetchSeesTheStoredByte : Obligations.FetchSeesTheStoredByte := by
  constructor
  · intro m s t r sp v hrun hsp h0 hr hv hexec
    obtain ⟨hstatus, hcell⟩ := exec_push_stores hsp h0 hr hv hexec
    have hrun' : (t.jump (pushAddress sp)).status = .running := hstatus.trans hrun
    have hop := State.memRead_jump_pc hcell
    exact ⟨fun hill => stepWith_of_illegal hrun' hop hill, fun hhlt => stepWith_of_hlt hrun' (hhlt ▸ hop)⟩
  · intro m s t r sp hrun hsp hexec hrun' hill
    rcases completed_or_enterFault hexec with hc | ⟨f, -, rfl⟩
    · obtain ⟨ra, hra, hcell⟩ := hc.call_stores hsp
      refine ⟨ra, hra, stepWith_of_illegal (s := t.jump (pushAddress sp)) hrun' (State.memRead_jump_pc hcell) ?_⟩
      exact fun k hk => hill k (hk ▸ hra)
    · cases hrun'

/-! ## The cells a fetch depends on -/

theorem State.operandByte_congr {s t : State} {n k : Nat} (hpc : s.pc = t.pc)
    (hmem : k ≤ n → s.memRead (s.pc.toNat + k) = t.memRead (s.pc.toNat + k)) :
    s.operandByte n k = t.operandByte n k := by
  unfold State.operandByte
  split
  · next hk => rw [hmem hk, hpc]
  · rfl

/-- A fetch depends on the opcode cell and the operand cells of the mnemonic found there, and on no other. -/
theorem State.fetchInstr_congr {m : OpcodeMap} {s t : State} (hpc : s.pc = t.pc)
    (hop : s.memRead s.pc.toNat = t.memRead s.pc.toNat)
    (hoperand : ∀ op k, s.memRead s.pc.toNat = .ok op → m.mnemonic? op = some k → ∀ j ≤ k.format.operandCount,
      s.memRead (s.pc.toNat + j) = t.memRead (s.pc.toNat + j)) : s.fetchInstr m = t.fetchInstr m := by
  unfold State.fetchInstr
  rw [← hpc, ← hop]
  cases hread : s.memRead s.pc.toNat with
  | error f => rfl
  | ok op =>
    rw [ok_bind, ok_bind]
    cases hk : m.mnemonic? op with
    | none => rfl
    | some k =>
      dsimp only
      rw [State.operandByte_congr hpc (hoperand op k hread hk 1),
        State.operandByte_congr hpc (hoperand op k hread hk 2)]

/-- A cell outside the opcode and operand cells decides nothing in a fetch. -/
theorem State.fetchInstr_store {m : OpcodeMap} {s : State} {a : Nat} (v : Byte) (hpc : a ≠ s.pc.toNat)
    (h : ∀ op k, s.memRead s.pc.toNat = .ok op → m.mnemonic? op = some k → ∀ j ≤ k.format.operandCount,
      s.pc.toNat + j ≠ a) : (s.store a v).fetchInstr m = s.fetchInstr m := by
  symm
  refine State.fetchInstr_congr (State.store_pc s a v).symm ?_ fun op k hop hk j hj => ?_
  · exact (State.memRead_store_other s v hpc.symm).symm
  · exact (State.memRead_store_other s v (h op k hop hk j hj)).symm

theorem State.fetchInstr_store_outside (m : OpcodeMap) (s : State) (a : Nat) (v : Byte)
    (h : a < s.pc.toNat ∨ s.pc.toNat + 2 < a) : (s.store a v).fetchInstr m = s.fetchInstr m :=
  State.fetchInstr_store v (by omega) fun _ k _ _ j hj => by
    have := k.format.operandCount_le
    omega

theorem State.fetchInstr_store_past {m : OpcodeMap} {s : State} {i : Instr} {a : Nat} (v : Byte)
    (hi : s.fetchInstr m = .ok i) (h : s.pc.toNat + i.length ≤ a) : (s.store a v).fetchInstr m = .ok i := by
  obtain ⟨op, k, o1, o2, hop, hk, -, -, rfl, -⟩ := State.fetchInstr_ok hi
  rw [Instr.length, Mnemonic.bindOperands_mnemonic, Mnemonic.length] at h
  rw [← hi]
  refine State.fetchInstr_store v (by omega) fun op' k' hop' hk' j hj => ?_
  cases hop.symm.trans hop'
  cases hk.symm.trans hk'
  omega

theorem State.memRead_of_operandByte_ok {s : State} {n k : Nat} {o : Byte} (h : s.operandByte n k = .ok o)
    (hk : k ≤ n) : s.memRead (s.pc.toNat + k) = .ok o := by
  rwa [State.operandByte, if_pos hk] at h

/-- The bytes of a fetched instruction are those in memory from the pc up. -/
theorem State.memRead_of_fetchInstr_ok {m : OpcodeMap} {s : State} {i : Instr} (h : s.fetchInstr m = .ok i) (j : Nat)
    (hj : j < (encode m i).length) : s.memRead (s.pc.toNat + j) = .ok (encode m i)[j] := by
  obtain ⟨op, k, o1, o2, hop, hk, ho1, ho2, rfl, -⟩ := State.fetchInstr_ok h
  have hcode := OpcodeMap.code_of_mnemonic? hk
  simp only [encode_bindOperands, List.length_cons, List.length_take, List.length_nil] at hj ⊢
  match j with
  | 0 => simpa [hcode] using hop
  | 1 => simpa using State.memRead_of_operandByte_ok ho1 (by omega)
  | 2 => simpa using State.memRead_of_operandByte_ok ho2 (by omega)
  | j + 3 => omega

end Sys2Proof.Machine
end

section
/-! PROOFS. Which instructions reach memory (20_memory.md R54): PUSH and CALL write the cell below SP, POP and RET
read the cell at SP, and the others leave memory alone. -/

namespace Sys2Proof.Machine

open Sys2Proof.Certificates

/-- Everything a finished instruction did to memory: PUSH and CALL wrote the cell below SP, the others nothing. -/
theorem Completed.mem_cases {i : Instr} {s t : State} (h : Completed i s t) :
    ((∀ r, i ≠ .push r ∧ i ≠ .call r) ∧ t.mem = s.mem) ∨
      ∃ sp v, (∃ r, i = .push r ∨ i = .call r) ∧ Holds s spIdx sp ∧
        t.mem = Memory.write s.mem (pushAddress sp).toNat v := by
  cases h with
  | push hsp => exact .inr ⟨_, _, ⟨_, .inl rfl⟩, hsp, rfl⟩
  | call hsp => exact .inr ⟨_, _, ⟨_, .inr rfl⟩, hsp, rfl⟩
  | _ => exact .inl ⟨fun _ => ⟨nofun, nofun⟩, rfl⟩

/-- POP and RET that raise nothing found a byte at SP. -/
theorem Completed.popped_defined {i : Instr} {s t : State} {sp : Byte} (h : Completed i s t) (hsp : Holds s spIdx sp)
    (hi : i = .ret ∨ ∃ r, i = .pop r) : (Memory.read? s.mem sp.toNat).isSome := by
  rcases hi with rfl | ⟨r, rfl⟩
  · cases h with
    | ret hsp' hv => cases hsp.symm.trans hsp'; simp [hv]
  · cases h with
    | pop hsp' hv => cases hsp.symm.trans hsp'; simp [hv]

/-- PUSH and CALL that raise nothing have defined the cell below SP. -/
theorem Completed.pushed_defined {i : Instr} {s t : State} {sp : Byte} (h : Completed i s t) (hsp : Holds s spIdx sp)
    (hi : ∃ r, i = .push r ∨ i = .call r) : (Memory.read? t.mem (pushAddress sp).toNat).isSome := by
  rcases h.mem_cases with ⟨hnot, -⟩ | ⟨sp', v, -, hsp', hmem⟩
  · obtain ⟨r, hi⟩ := hi
    exact absurd hi (not_or.mpr (hnot r))
  · cases hsp.symm.trans hsp'
    simp [hmem]

theorem sameMemBut_of_mem_eq {as : List Nat} {s t : State} (h : t.mem = s.mem) : SameMemBut as s t :=
  fun _ _ => by rw [h]

theorem exec_sameMemBut {i : Instr} {s t : State} (h : exec i s = .next t) :
    ((∀ r, i ≠ .push r ∧ i ≠ .call r) → SameMemBut [] s t) ∧
      SameMemBut [(pushAddress (s.reg spIdx).value).toNat] s t := by
  rcases completed_or_enterFault h with hc | ⟨f, -, rfl⟩
  · rcases hc.mem_cases with ⟨-, hmem⟩ | ⟨sp, v, ⟨r, hi⟩, hsp, hmem⟩
    · exact ⟨fun _ => sameMemBut_of_mem_eq hmem, sameMemBut_of_mem_eq hmem⟩
    · rw [hsp]
      exact ⟨fun hnot => absurd hi (not_or.mpr (hnot r)), sameMemBut_of_mem_eq_write hmem⟩
  · exact ⟨fun _ => sameMemBut_of_mem_eq rfl, sameMemBut_of_mem_eq rfl⟩

/-! ## States that differ in their memory -/

/-- `t` is `s` with another memory. -/
def SameButMem (s t : State) : Prop := ∃ m, t = { s with mem := m }

theorem keptByOps_sameButMem : KeptByOps SameButMem where
  samePc := by rintro s _ ⟨m, rfl⟩; rfl
  writeReg := by rintro s _ i v ⟨m, rfl⟩; exact ⟨m, rfl⟩
  store := by rintro s _ a v ⟨m, rfl⟩; exact ⟨_, rfl⟩
  emit := by rintro s _ v ⟨m, rfl⟩; exact ⟨m, rfl⟩
  compare := by rintro s _ x y ⟨m, rfl⟩; exact ⟨m, rfl⟩
  advance := by rintro s _ n ⟨m, rfl⟩; exact ⟨m, rfl⟩
  jump := by rintro s _ v ⟨m, rfl⟩; exact ⟨m, rfl⟩
  halt := by rintro s _ ⟨m, rfl⟩; exact ⟨m, rfl⟩
  enterFault := by rintro s _ f ⟨m, rfl⟩; exact ⟨m, rfl⟩

theorem sameReads_sameButMem (k : RegIdx) : SameReads SameButMem k := by rintro s _ ⟨m, rfl⟩; rfl

/-- An instruction that does not read the stored cell reads the same in both states. -/
theorem readsAlike_store {i : Instr} {s : State} {a : Nat} (v : Byte)
    (h : i = .ret ∨ (∃ r, i = .pop r) → a ≠ (s.reg spIdx).value.toNat) :
    ReadsAlike SameButMem i s (s.store a v) where
  regs k _ := sameReads_sameButMem k
  flag _ := rfl
  cell hi sp hsp := by
    have ha := h hi
    rw [hsp] at ha
    exact (State.memRead_store_other s v ha.symm).symm

theorem exec_store {i : Instr} {s t : State} {a : Nat} (v : Byte) (ht : exec i s = .next t)
    (h : i = .ret ∨ (∃ r, i = .pop r) → a ≠ (s.reg spIdx).value.toNat) :
    ∃ t', exec i (s.store a v) = .next t' ∧ { t' with mem := t.mem } = t := by
  obtain ⟨t', ht', m, rfl⟩ := exec_alike keptByOps_sameButMem ⟨_, rfl⟩ (readsAlike_store v h) ht
  exact ⟨_, ht', rfl⟩

/-- Settles O37: the writes from the shapes of a finished instruction, the reads from two runs whose memories differ in
a cell not read, the fetch from the cells it depends on. -/
theorem whichOperationsReachMemory : Obligations.WhichOperationsReachMemory := by
  refine ⟨fun _ _ _ => exec_sameMemBut, fun _ _ _ _ v ht h => exec_store v ht h, State.fetchInstr_store_outside,
    fun _ _ _ _ v hi h => State.fetchInstr_store_past v hi h, fun _ _ _ => State.memRead_of_fetchInstr_ok, ?_⟩
  intro i s t sp hsp h hnofault
  rcases completed_or_enterFault h with hc | ⟨f, -, ht⟩
  · exact ⟨hc.pushed_defined hsp, hc.popped_defined hsp⟩
  · exact absurd ht (hnofault f)

end Sys2Proof.Machine
end

section
/-! PROOFS. The decoder and the encoder (30_encoding.md R70 to R81): decoding the bytes of an instruction gives it back,
what decodes begins with its encoding, and which opcode bytes are illegal. -/

namespace Sys2Proof

/-! ## Operand bytes -/

/-- Every instruction is its mnemonic bound to two operand bytes. -/
theorem Instr.eq_bindOperands (i : Instr) : ∃ o1 o2, i = i.mnemonic.bindOperands o1 o2 := by
  cases i with
  | hlt => exact ⟨0, 0, rfl⟩
  | ret => exact ⟨0, 0, rfl⟩
  | ldi a b => exact ⟨a, b, rfl⟩
  | mul a b => exact ⟨a, b, rfl⟩
  | cmp a b => exact ⟨a, b, rfl⟩
  | add a b => exact ⟨a, b, rfl⟩
  | prn r => exact ⟨r, 0, rfl⟩
  | push r => exact ⟨r, 0, rfl⟩
  | pop r => exact ⟨r, 0, rfl⟩
  | call r => exact ⟨r, 0, rfl⟩
  | jmp r => exact ⟨r, 0, rfl⟩
  | jeq r => exact ⟨r, 0, rfl⟩
  | jne r => exact ⟨r, 0, rfl⟩

/-- Binding looks at no byte beyond the operands of the format. -/
theorem Mnemonic.bindOperands_take_append (k : Mnemonic) (o1 o2 : Byte) (rest : List Byte) :
    k.bindOperands (([o1, o2].take k.format.operandCount ++ rest).getD 0 0)
      (([o1, o2].take k.format.operandCount ++ rest).getD 1 0) = k.bindOperands o1 o2 := by
  cases k <;> rfl

/-- The bytes a format of n operands binds are the first n, when there are as many. -/
theorem take_getD_getD {n : Nat} (hn : n ≤ 2) {bytes : List Byte} (h : n ≤ bytes.length) :
    [bytes.getD 0 0, bytes.getD 1 0].take n = bytes.take n := by
  match n, bytes with
  | 0, _ => rfl
  | 1, _ :: _ => rfl
  | 2, _ :: _ :: _ => rfl

/-! ## What the decoder answers -/

/-- All there is to a decode that succeeds: the opcode byte has a mnemonic, its operand bytes are there, and bound to
it they make a well-formed instruction. -/
theorem decode_cons_ok_iff {m : OpcodeMap} {op : Byte} {rest : List Byte} {i : Instr} :
    decode m (op :: rest) = .ok i ↔ ∃ k, m.mnemonic? op = some k ∧ k.format.operandCount ≤ rest.length ∧
      i = k.bindOperands (rest.getD 0 0) (rest.getD 1 0) ∧ i.WellFormed := by
  constructor
  · intro h
    rw [decode] at h
    split at h
    · cases h
    · next k hk =>
      split at h
      · cases h
      · next hlen =>
        dsimp only at h
        split at h
        · cases h
        · next hbad =>
          cases h
          exact ⟨k, hk, Nat.le_of_not_lt hlen, rfl, Instr.badRegister?_eq_none.mp hbad⟩
  · rintro ⟨k, hk, hlen, rfl, hwf⟩
    simp only [decode, hk, if_neg (Nat.not_lt.mpr hlen), Instr.badRegister?_eq_none.mpr hwf]

/-- Decode undoes encode for an instruction whose opcode byte looks up to its mnemonic. -/
theorem decode_encode_append {m : OpcodeMap} {i : Instr} (hcode : m.mnemonic? (m.code i.mnemonic) = some i.mnemonic)
    (hi : i.WellFormed) (rest : List Byte) : decode m (encode m i ++ rest) = .ok i := by
  obtain ⟨o1, o2, hbind⟩ := i.eq_bindOperands
  have hbytes : encode m i ++ rest =
      m.code i.mnemonic :: ([o1, o2].take i.mnemonic.format.operandCount ++ rest) := by
    conv_lhs => rw [hbind, encode_bindOperands, List.cons_append]
  rw [hbytes]
  refine decode_cons_ok_iff.mpr ⟨i.mnemonic, hcode, ?_, ?_, hi⟩
  · have hcount := i.mnemonic.format.operandCount_le
    simp only [List.length_append, List.length_take, List.length_cons, List.length_nil]
    omega
  · rw [Mnemonic.bindOperands_take_append, ← hbind]

/-- Settles O11: a legal map looks the opcode byte up to the mnemonic it was written for, and the operand bytes bind to
the operands they were written from. -/
theorem decodeOfEncodeIsTheInstruction : Obligations.DecodeOfEncodeIsTheInstruction :=
  fun _ hm i hi rest => decode_encode_append (hm.mnemonic?_code i.mnemonic) hi rest

/-- Settles O12: the opcode byte is the code of its mnemonic, and the bytes bound are those that follow it. -/
theorem decodedBytesAreTheEncoding : Obligations.DecodedBytesAreTheEncoding := by
  intro m bytes i h
  cases bytes with
  | nil => cases h
  | cons op rest =>
    obtain ⟨k, hk, hlen, rfl, hwf⟩ := decode_cons_ok_iff.mp h
    refine ⟨hwf, rest.drop k.format.operandCount, ?_⟩
    rw [encode_bindOperands, OpcodeMap.code_of_mnemonic? hk, take_getD_getD k.format.operandCount_le hlen,
      List.cons_append, List.take_append_drop]

/-- The encoding has the length of the instruction (30_encoding.md R71), whichever instruction it is. -/
theorem encode_length (m : OpcodeMap) : ∀ i : Instr, (encode m i).length = i.length
  | .hlt => Laws.EncodeLength.hlt m
  | .ldi r imm => Laws.EncodeLength.ldi r imm m
  | .prn r => Laws.EncodeLength.prn r m
  | .mul a b => Laws.EncodeLength.mul a b m
  | .cmp a b => Laws.EncodeLength.cmp a b m
  | .push r => Laws.EncodeLength.push r m
  | .pop r => Laws.EncodeLength.pop r m
  | .call r => Laws.EncodeLength.call r m
  | .ret => Laws.EncodeLength.ret m
  | .jmp r => Laws.EncodeLength.jmp r m
  | .jeq r => Laws.EncodeLength.jeq r m
  | .jne r => Laws.EncodeLength.jne r m
  | .add a b => Laws.EncodeLength.add a b m

/-- Settles O9: one opcode byte has one mnemonic, and the mnemonic gives both lengths. -/
theorem lengthIsKnownFromTheOpcodeByte : Obligations.LengthIsKnownFromTheOpcodeByte := by
  intro m op rest rest' i i' h h'
  obtain ⟨k, hk, -, rfl, -⟩ := decode_cons_ok_iff.mp h
  obtain ⟨k', hk', -, rfl, -⟩ := decode_cons_ok_iff.mp h'
  cases hk.symm.trans hk'
  simp only [encode_length, Instr.length, Mnemonic.bindOperands_mnemonic, Mnemonic.length, and_self]

/-- Settles O7: HLT, LDI and PRN stand first in the lookup's order, so every map, legal or not, decodes their
encodings. -/
theorem sourceExampleDecodes : Obligations.SourceExampleDecodes := fun _ =>
  ⟨rfl, rfl, rfl, decode_encode_append (i := .ldi 0 8) rfl (by decide) [0x47, 0, 1],
    decode_encode_append (i := .prn 0) rfl (by decide) [1], decode_encode_append (i := .hlt) rfl (by decide) []⟩

/-- Under the default map, with nothing after it, the encoding of a well-formed instruction decodes to it. -/
theorem decode_encode_default (i : Instr) (hi : i.WellFormed) :
    decode defaultOpcodeMap (encode defaultOpcodeMap i ++ []) = .ok i :=
  decode_encode_append (defaultOpcodeMap_legal.mnemonic?_code i.mnemonic) hi []

/-- Settles O8: each of the words is the encoding of its instruction under the default map. -/
theorem defaultWordsDecode : Obligations.DefaultWordsDecode :=
  ⟨decode_encode_default (.mul 1 2) (by decide), decode_encode_default (.cmp 3 4) (by decide),
    decode_encode_default (.push 7) (by decide), decode_encode_default (.pop 6) (by decide),
    decode_encode_default (.call 1) (by decide), decode_encode_default .ret (by decide),
    decode_encode_default (.jmp 3) (by decide), decode_encode_default (.jeq 2) (by decide),
    decode_encode_default (.jne 2) (by decide), decode_encode_default (.add 6 5) (by decide)⟩

/-! ## Illegal opcode bytes (30_encoding.md R79) -/

/-- A mnemonic is found for the values of the map and for no other byte. -/
theorem OpcodeMap.isSome_mnemonic? {m : OpcodeMap} {op : Byte} : (m.mnemonic? op).isSome ↔ ∃ k, m.code k = op := by
  rw [Option.isSome_iff_ne_none, Ne, OpcodeMap.mnemonic?_eq_none, not_forall_not]

/-- Under a legal map the numbers of the opcode bytes are those of the thirteen codes, each once. -/
theorem OpcodeMap.Legal.opcodeBytes_perm {m : OpcodeMap} (hm : m.Legal) :
    ((List.range 256).filter fun b => (m.mnemonic? (BitVec.ofNat 8 b)).isSome).Perm
      (Mnemonic.all.map fun k => (m.code k).toNat) := by
  have hinj : Function.Injective fun k => (m.code k).toNat :=
    fun _ _ h => hm.code_injective (BitVec.eq_of_toNat_eq h)
  have hall : Mnemonic.all.Nodup := by decide
  refine (List.perm_ext_iff_of_nodup (List.nodup_range.filter _) (hall.map hinj)).mpr fun b => ?_
  simp only [List.mem_filter, List.mem_range, OpcodeMap.isSome_mnemonic?, List.mem_map, Mnemonic.mem_all, true_and]
  constructor
  · rintro ⟨hb, k, hk⟩
    exact ⟨k, by rw [hk, BitVec.toNat_ofNat, Nat.mod_eq_of_lt hb]⟩
  · rintro ⟨k, rfl⟩
    exact ⟨(m.code k).isLt, k, by rw [BitVec.ofNat_toNat, BitVec.setWidth_eq]⟩

/-- Under a legal map all but thirteen of the 256 byte values are illegal opcodes. -/
theorem OpcodeMap.Legal.length_illegalBytes {m : OpcodeMap} (hm : m.Legal) :
    ((List.range 256).filter fun b => (m.mnemonic? (BitVec.ofNat 8 b)).isNone).length = 243 := by
  have hlegal : _ = 13 := hm.opcodeBytes_perm.length_eq
  have hsplit := List.length_eq_length_filter_add (l := List.range 256) fun b => (m.mnemonic? (BitVec.ofNat 8 b)).isSome
  simp only [List.length_range, Option.not_isSome] at hsplit
  omega

end Sys2Proof

namespace Sys2Proof.Machine

/-- Settles O15: the fetch raises on a byte without mnemonic, and the default map, being legal, has thirteen opcode
bytes. -/
theorem illegalOpcodeBytes : Obligations.IllegalOpcodeBytes :=
  ⟨fun _ _ _ hr hop h => stepWith_of_illegal hr hop h, defaultOpcodeMap_legal.length_illegalBytes, by decide⟩

end Sys2Proof.Machine
end

section
/-! PROOFS. The loop's fetch from the bytes at the pc (40_execution_loop.md R101 to R106): what it raises, and when it
gives the instruction that the bytes decode to. -/

namespace Sys2Proof

/-- Binding looks at an operand byte only where the format has one (40_execution_loop.md R106). -/
theorem Mnemonic.bindOperands_congr {k : Mnemonic} {a b o1 o2 : Byte} (h1 : 1 ≤ k.format.operandCount → a = o1)
    (h2 : 2 ≤ k.format.operandCount → b = o2) : k.bindOperands a b = k.bindOperands o1 o2 := by
  cases k with
  | HLT | RET => rfl
  | PRN | PUSH | POP | CALL | JMP | JEQ | JNE => rw [h1 (by decide)]; rfl
  | LDI | MUL | CMP | ADD => rw [h1 (by decide), h2 (by decide)]

/-- A register operand above 7 with none above 7 before it is the one the operand check finds. -/
theorem Instr.badRegister?_of_first {i : Instr} {earlier later : List Byte} {o : Byte}
    (h : i.registerOperands = earlier ++ o :: later) (hearlier : ∀ x ∈ earlier, x.toNat ≤ 7) (ho : 7 < o.toNat) :
    i.badRegister? = some o := by
  refine List.find?_eq_some_iff_append.mpr ⟨decide_eq_true (Nat.not_lt.mpr ho), earlier, later, h, fun x hx => ?_⟩
  have hx7 : namesRegister x := Nat.lt_succ_of_le (hearlier x hx)
  simpa using hx7

end Sys2Proof

namespace Sys2Proof.Machine

/-- The operand check of a bound instruction, as a fetch makes it (40_execution_loop.md R105). -/
def checkOperands (i : Instr) : Except Fault Instr :=
  match i.badRegister? with
  | some o => .error (.regIndex o)
  | none => .ok i

theorem checkOperands_of_wellFormed {i : Instr} (h : i.WellFormed) : checkOperands i = .ok i := by
  rw [checkOperands, Instr.badRegister?_eq_none.mpr h]

theorem checkOperands_of_badRegister {i : Instr} {o : Byte} (h : i.badRegister? = some o) :
    checkOperands i = .error (.regIndex o) := by
  rw [checkOperands, h]

/-! ## Operand bytes -/

theorem State.operandByte_eq_memRead {s : State} {n k : Nat} (h : k ≤ n) :
    s.operandByte n k = s.memRead (s.pc.toNat + k) := if_pos h

theorem State.operandByte_of_memRead {s : State} {n k : Nat} {o : Byte}
    (h : k ≤ n → s.memRead (s.pc.toNat + k) = .ok o) : s.operandByte n k = .ok (if k ≤ n then o else 0) := by
  unfold State.operandByte
  split
  · next hk => exact h hk
  · rfl

/-! ## The fetch, stage by stage -/

theorem State.fetchInstr_of_opcode_error {m : OpcodeMap} {s : State} {f : Fault}
    (h : s.memRead s.pc.toNat = .error f) : s.fetchInstr m = .error f := by
  rw [State.fetchInstr, h, error_bind]

section Mnemonic

variable {m : OpcodeMap} {s : State} {op : Byte} {k : Mnemonic}

/-- What a fetch has left to do once it has found the mnemonic. -/
theorem State.fetchInstr_of_mnemonic (hop : s.memRead s.pc.toNat = .ok op) (hk : m.mnemonic? op = some k) :
    s.fetchInstr m = s.operandByte k.format.operandCount 1 >>= fun o1 =>
      s.operandByte k.format.operandCount 2 >>= fun o2 => checkOperands (k.bindOperands o1 o2) := by
  rw [State.fetchInstr, hop, ok_bind, hk]
  rfl

/-- The fault of the first operand byte that cannot be read is the fetch's. -/
theorem State.fetchInstr_of_operand_error (hop : s.memRead s.pc.toNat = .ok op) (hk : m.mnemonic? op = some k)
    {n : Nat} {f : Fault} (hpos : 1 ≤ n) (hn : n ≤ k.format.operandCount)
    (hf : s.memRead (s.pc.toNat + n) = .error f)
    (hbefore : ∀ n', 1 ≤ n' → n' < n → ∃ o, s.memRead (s.pc.toNat + n') = .ok o) : s.fetchInstr m = .error f := by
  have hcount := k.format.operandCount_le
  rw [State.fetchInstr_of_mnemonic hop hk]
  obtain rfl | rfl : n = 1 ∨ n = 2 := by omega
  · rw [State.operandByte_eq_memRead hn, hf, error_bind]
  · obtain ⟨o1, ho1⟩ := hbefore 1 le_rfl one_lt_two
    rw [State.operandByte_eq_memRead (by omega), ho1, ok_bind, State.operandByte_eq_memRead hn, hf, error_bind]

/-- With its operand bytes read, a fetch is the check of the instruction they bind to. -/
theorem State.fetchInstr_of_operands (hop : s.memRead s.pc.toNat = .ok op) (hk : m.mnemonic? op = some k)
    {o1 o2 : Byte} (h1 : 1 ≤ k.format.operandCount → s.memRead (s.pc.toNat + 1) = .ok o1)
    (h2 : 2 ≤ k.format.operandCount → s.memRead (s.pc.toNat + 2) = .ok o2) :
    s.fetchInstr m = checkOperands (k.bindOperands o1 o2) := by
  rw [State.fetchInstr_of_mnemonic hop hk, State.operandByte_of_memRead h1, ok_bind,
    State.operandByte_of_memRead h2, ok_bind, Mnemonic.bindOperands_congr (fun h => if_pos h) fun h => if_pos h]

end Mnemonic

/-- Settles O14: each stage of the fetch that raises ends it, and the step enters the fault of the fetch. -/
theorem fetchRaisesInOrder : Obligations.FetchRaisesInOrder := by
  intro m s hr
  refine ⟨fun hpc => ?_, fun hpc hcell => ?_, fun op hop hill => stepWith_of_illegal hr hop hill, ?_, ?_⟩
  · exact stepWith_of_fetch_error hr (State.fetchInstr_of_opcode_error (State.memRead_of_gt hpc))
  · exact stepWith_of_fetch_error hr (State.fetchInstr_of_opcode_error (State.memRead_of_undefined hpc hcell))
  · intro op k hop hk n f hpos hn hf hbefore
    exact stepWith_of_fetch_error hr (State.fetchInstr_of_operand_error hop hk hpos hn hf hbefore)
  · intro op k o1 o2 hop hk h1 h2 earlier o later hregs hearlier ho
    refine stepWith_of_fetch_error hr ?_
    rw [State.fetchInstr_of_operands hop hk h1 h2,
      checkOperands_of_badRegister (Instr.badRegister?_of_first hregs hearlier ho)]

/-- Bytes at the pc that decode to an instruction are fetched as it. -/
theorem State.fetchInstr_of_decode {m : OpcodeMap} {s : State} {bytes : List Byte} {i : Instr}
    (hbytes : ∀ k (h : k < bytes.length), s.memRead (s.pc.toNat + k) = .ok bytes[k])
    (hdecode : decode m bytes = .ok i) : s.fetchInstr m = .ok i := by
  cases bytes with
  | nil => cases hdecode
  | cons op rest =>
    obtain ⟨k, hk, hlen, rfl, hwf⟩ := decode_cons_ok_iff.mp hdecode
    have hop : s.memRead s.pc.toNat = .ok op := hbytes 0 (Nat.succ_pos _)
    have hoperand (j : Nat) (hj : j < rest.length) : s.memRead (s.pc.toNat + (j + 1)) = .ok (rest.getD j 0) := by
      rw [List.getD_eq_getElem rest 0 hj]
      exact hbytes (j + 1) (Nat.succ_lt_succ hj)
    rw [State.fetchInstr_of_operands hop hk (fun h => hoperand 0 (by omega)) fun h => hoperand 1 (by omega),
      checkOperands_of_wellFormed hwf]

/-- Settles O13: the fetch gives the instruction the bytes decode to, and the step executes what the fetch gives. -/
theorem stepRunsTheDecodedInstruction : Obligations.StepRunsTheDecodedInstruction := by
  intro m s bytes i hr hbytes hdecode
  have hstep : stepWith m s = exec i s := stepWith_of_fetch_ok hr (State.fetchInstr_of_decode hbytes hdecode)
  exact ⟨hstep, fun hm => by rw [step, ← hm, hstep]⟩

end Sys2Proof.Machine
end

section
/-! PROOFS. What each host input does while Idle and in the other statuses (40_execution_loop.md R109;
70_reset_and_hazards.md R210 to R213). -/

namespace Sys2Proof.Machine

/-! ## Outside Idle -/

theorem State.load_of_not_idle {s : State} (h : s.status ≠ .idle) (image : List Byte) : s.load image = s := by
  cases hs : s.status with
  | idle => exact absurd hs h
  | running | halted | faulted => simp only [State.load, hs]

theorem State.loadSource_of_parsed {text : List Char} {image : List Byte} (s : State)
    (h : parseSource text = some image) : s.loadSource text = s.load image := by
  simp only [State.loadSource, h]

theorem State.loadSource_of_not_idle {s : State} (h : s.status ≠ .idle) (text : List Char) :
    s.loadSource text = s := by
  cases hp : parseSource text with
  | some image => exact (s.loadSource_of_parsed hp).trans (State.load_of_not_idle h image)
  | none =>
    cases hs : s.status with
    | idle => exact absurd hs h
    | running | halted | faulted => simp only [State.loadSource, hp, hs]

theorem State.start_of_not_idle {s : State} (h : s.status ≠ .idle) : s.start = s := by
  cases hs : s.status with
  | idle => exact absurd hs h
  | running | halted | faulted => simp only [State.start, hs]

theorem State.input_of_not_idle {s : State} {x : HostInput} (h : s.status ≠ .idle) (hx : x ≠ .reset) :
    s.input x = s := by
  cases x with
  | reset => exact absurd rfl hx
  | load image => exact State.load_of_not_idle h image
  | loadSource text => exact State.loadSource_of_not_idle h text
  | start => exact State.start_of_not_idle h

/-- Settles O4: a step asks for Running, and every host input but reset asks for Idle. -/
theorem onlyRunningTakesAStep : Obligations.OnlyRunningTakesAStep :=
  ⟨fun _ _ => stepWith_of_not_running, fun s _ hs hx =>
    have hidle : s.status ≠ .idle := by rcases hs with hs | hs <;> simp [hs]
    State.input_of_not_idle hidle hx⟩

/-! ## While Idle -/

@[simp] theorem State.refuseLoad_status (s : State) (len : Nat) : (s.refuseLoad len).status = .faulted := rfl
@[simp] theorem State.refuseLoad_fault (s : State) (len : Nat) :
    (s.refuseLoad len).fault = { cause := 9, pc := 0, info := (Fault.loadError len).info } := rfl

theorem State.load_of_le {s : State} {image : List Byte} (hi : s.status = .idle) (h : image.length ≤ 256) :
    s.load image = { s with mem := Memory.loadAt s.mem 0 image } := by
  simp only [State.load, hi, if_pos h]

theorem State.load_of_gt {s : State} {image : List Byte} (hi : s.status = .idle) (h : 256 < image.length) :
    s.load image = s.refuseLoad image.length := by
  simp only [State.load, hi, if_neg (Nat.not_le.mpr h)]

theorem State.loadSource_of_parse_failure {s : State} {text : List Char} (hi : s.status = .idle)
    (h : parseSource text = none) : s.loadSource text = s.refuseLoad 0 := by
  simp only [State.loadSource, h, hi]

theorem State.start_of_idle {s : State} (hi : s.status = .idle) : s.start = { s with status := .running } := by
  simp only [State.start, hi]

/-- A load stays Idle unless it is refused. -/
theorem State.load_idle_or_refused {s : State} (hi : s.status = .idle) (image : List Byte) :
    (s.load image).status = .idle ∨ ∃ len, s.load image = s.refuseLoad len := by
  rcases le_or_gt image.length 256 with h | h
  · exact .inl (by rw [State.load_of_le hi h, hi])
  · exact .inr ⟨_, State.load_of_gt hi h⟩

theorem State.loadSource_idle_or_refused {s : State} (hi : s.status = .idle) (text : List Char) :
    (s.loadSource text).status = .idle ∨ ∃ len, s.loadSource text = s.refuseLoad len := by
  cases hp : parseSource text with
  | some image => rw [State.loadSource_of_parsed s hp]; exact State.load_idle_or_refused hi image
  | none => exact .inr ⟨0, State.loadSource_of_parse_failure hi hp⟩

/-- Settles O5: reset and an accepted load end in Idle, start in Running, a refused load in Faulted with cause 9. -/
theorem idleIsLeftByStartOrRefusedLoad : Obligations.IdleIsLeftByStartOrRefusedLoad := by
  intro s x hi hleft
  cases x with
  | reset => exact absurd rfl hleft
  | load image =>
    obtain ⟨len, h⟩ := (State.load_idle_or_refused hi image).resolve_left hleft
    exact .inr (by simp [State.input, h])
  | loadSource text =>
    obtain ⟨len, h⟩ := (State.loadSource_idle_or_refused hi text).resolve_left hleft
    exact .inr (by simp [State.input, h])
  | start => exact .inl ⟨rfl, by rw [State.input, State.start_of_idle hi]⟩

end Sys2Proof.Machine
end

section
/-! PROOFS. The ALU instructions: what ADD, MUL and CMP make of two defined registers, and what they raise
(41_alu.md R120 to R126). -/

namespace Sys2Proof.Machine

open Sys2Proof.Certificates

/-! ## From an instruction's body to its execution -/

theorem exec_of_instrBody_ok {i : Instr} {s t : State} (h : instrBody i s = .ok t) : exec i s = .next t := by
  rw [exec_eq_commit, h, commit_ok]

theorem raises_of_instrBody_error {i : Instr} {s : State} {f : Fault} (h : instrBody i s = .error f) :
    Raises i s f := by
  rw [Raises, exec_eq_commit, h, commit_error]

/-! ## The results of ADD and MUL -/

@[simp] theorem aluAdd_toNat (x y : Byte) : (aluAdd x y).toNat = (x.toNat + y.toNat) % 256 := BitVec.toNat_ofNat _ _

@[simp] theorem aluMul_toNat (x y : Byte) : (aluMul x y).toNat = (x.toNat * y.toNat) % 256 := BitVec.toNat_ofNat _ _

/-- On defined operands a body of this form finishes with its result in the first register, and changes nothing else
but the pc. -/
theorem aluBody_writes_result (op : Byte → Byte → Byte) {s : State} {a b : RegIdx} {x y : Byte} (hx : Holds s a x)
    (hy : Holds s b y) :
    ∃ t, aluBody op (regByte a) (regByte b) s = .ok t ∧ Holds t a (op x y) ∧ t.pc = s.pc + 3 ∧
      SameRegsBut [a] s t ∧ t.flags = s.flags ∧ t.output = s.output ∧ SameMemBut [] s t ∧ SameStatus s t :=
  have hregs : SameRegsBut [a] s ((s.writeReg a (op x y)).advance 3) := fun _ hj =>
    State.reg_writeReg_other s _ (List.ne_of_not_mem_cons hj)
  ⟨_, aluBody_ok_iff.mpr ⟨a, b, x, y, rfl, rfl, hx, hy, rfl⟩, State.reg_writeReg_same s a _, rfl, hregs, rfl, rfl,
    sameMemBut_of_mem_eq rfl, rfl, rfl⟩

/-- Settles O21: the shared body of ADD and MUL, with the sum for its result. -/
theorem addIsModulo256 : Obligations.AddIsModulo256 := by
  intro s a b x y hx hy
  obtain ⟨t, hbody, hresult, hframe⟩ := aluBody_writes_result aluAdd hx hy
  exact ⟨t, aluAdd x y, exec_of_instrBody_ok hbody, hresult, aluAdd_toNat x y, hframe⟩

/-- Settles O22: the shared body of ADD and MUL, with the product for its result. -/
theorem mulIsModulo256 : Obligations.MulIsModulo256 := by
  intro s a b x y hx hy
  obtain ⟨t, hbody, hresult, hframe⟩ := aluBody_writes_result aluMul hx hy
  exact ⟨t, aluMul x y, exec_of_instrBody_ok hbody, hresult, aluMul_toNat x y, hframe⟩

/-! ## The flags after CMP -/

theorem compareBytes_of_eq {x y : Byte} (h : x.toNat = y.toNat) : compareBytes x y = .equal := if_pos h

theorem compareBytes_of_gt {x y : Byte} (h : y.toNat < x.toNat) : compareBytes x y = .greater := by
  rw [compareBytes, if_neg h.ne', if_pos h]

theorem compareBytes_of_lt {x y : Byte} (h : x.toNat < y.toNat) : compareBytes x y = .less := by
  rw [compareBytes, if_neg h.ne, if_neg h.asymm]

/-- Under the policy `retain` the outcome's flag is set on top of the prior flags (D4; log 11). -/
theorem flagsAfterCmp_cmpPolicy (x y : Byte) (f : Flags) :
    flagsAfterCmp cmpPolicy x y f = f.mark (compareBytes x y) := rfl

/-- On defined operands CMP finishes, with flags that depend on the unsigned comparison alone. -/
theorem exec_cmp_of_holds {s : State} {a b : RegIdx} {x y : Byte} (hx : Holds s a x) (hy : Holds s b y) :
    exec (.cmp (regByte a) (regByte b)) s =
      .next ((s.setFlags (s.flags.mark (compareBytes x y))).advance 3) :=
  exec_of_instrBody_ok <| cmpBody_ok_iff.mpr
    ⟨a, b, x, y, rfl, rfl, hx, hy, by rw [flagsAfterCmp_cmpPolicy]⟩

/-- Settles O23: the flags are the prior ones marked with the outcome, and the three cases name the outcome. -/
theorem cmpSetsOneFlag : Obligations.CmpSetsOneFlag := fun s _ _ _ _ hx hy =>
  ⟨_, exec_cmp_of_holds hx hy, fun h => congrArg s.flags.mark (compareBytes_of_eq h),
    fun h => congrArg s.flags.mark (compareBytes_of_gt h), fun h => congrArg s.flags.mark (compareBytes_of_lt h), rfl,
    fun _ _ => rfl, rfl, sameMemBut_of_mem_eq rfl, rfl, rfl⟩

/-! ## What the three raise -/

/-- What the three bodies have in common: the check of both operand bytes, then the reads of a and of b. -/
def aluOperands (a b : Byte) (s : State) : Except Fault (RegIdx × Byte × Byte) := do
  let (ra, rb) ← regOperands a b
  let va ← s.readReg ra
  let vb ← s.readReg rb
  .ok (ra, va, vb)

theorem aluBody_eq_bind (op : Byte → Byte → Byte) (a b : Byte) (s : State) :
    aluBody op a b s = aluOperands a b s >>= fun (i, x, y) => .ok ((s.writeReg i (op x y)).advance 3) := by
  simp only [aluBody, aluOperands, bind_assoc, ok_bind]

theorem cmpBody_eq_bind (a b : Byte) (s : State) :
    cmpBody a b s = aluOperands a b s >>= fun (_, x, y) =>
      .ok ((s.setFlags (flagsAfterCmp cmpPolicy x y s.flags)).advance 3) := by
  simp only [cmpBody, aluOperands, bind_assoc, ok_bind]

theorem raises_of_aluOperands_error {C : Byte → Byte → Instr} (hC : C = Instr.add ∨ C = Instr.mul ∨ C = Instr.cmp)
    {a b : Byte} {s : State} {f : Fault} (h : aluOperands a b s = .error f) : Raises (C a b) s f := by
  apply raises_of_instrBody_error
  rcases hC with rfl | rfl | rfl
  · rw [instrBody, aluBody_eq_bind, h, error_bind]
  · rw [instrBody, aluBody_eq_bind, h, error_bind]
  · rw [instrBody, cmpBody_eq_bind, h, error_bind]

theorem aluOperands_bad_first {o : Byte} (b : Byte) (s : State) (h : 7 < o.toNat) :
    aluOperands o b s = .error (.regIndex o) := by
  rw [aluOperands, regOperands, regOperand_bad h, error_bind, error_bind]

theorem aluOperands_bad_second (a : RegIdx) {o : Byte} (s : State) (h : 7 < o.toNat) :
    aluOperands (regByte a) o s = .error (.regIndex o) := by
  rw [aluOperands, regOperands, regOperand_regByte, ok_bind, regOperand_bad h, error_bind, error_bind]

@[simp] theorem regOperands_regByte (a b : RegIdx) : regOperands (regByte a) (regByte b) = .ok (a, b) :=
  regOperands_ok_iff.mpr ⟨rfl, rfl⟩

theorem aluOperands_undefined_first {s : State} {a : RegIdx} (b : RegIdx) (h : Undefined s a) :
    aluOperands (regByte a) (regByte b) s = .error (.uninitReg a) := by
  simp only [aluOperands, regOperands_regByte, ok_bind, State.readReg_of_undefined h, error_bind]

theorem aluOperands_undefined_second {s : State} {a b : RegIdx} {x : Byte} (hx : Holds s a x) (h : Undefined s b) :
    aluOperands (regByte a) (regByte b) s = .error (.uninitReg b) := by
  simp only [aluOperands, regOperands_regByte, ok_bind, State.readReg_of_defined hx, State.readReg_of_undefined h,
    error_bind]

/-- Settles O24: the first of the two checks and two reads to fail gives the fault of all three instructions. -/
theorem aluRaisesInOrder : Obligations.AluRaisesInOrder := fun _ hC =>
  ⟨fun s _ b ho => raises_of_aluOperands_error hC (aluOperands_bad_first b s ho),
    fun s a _ ho => raises_of_aluOperands_error hC (aluOperands_bad_second a s ho),
    fun _ _ b ha => raises_of_aluOperands_error hC (aluOperands_undefined_first b ha),
    fun _ _ _ _ hx hb => raises_of_aluOperands_error hC (aluOperands_undefined_second hx hb)⟩

end Sys2Proof.Machine
end

section
/-! PROOFS. Data movement and output: what LDI and PRN leave in the next state, and what they raise
(42_data_io.md R140 to R142). -/

namespace Sys2Proof

/-- The source fixes the byte of LDI (30_encoding.md R75), and only HLT, with another fixed byte, stands before LDI in
the lookup's order: every map, legal or not, looks it up to LDI. -/
theorem OpcodeMap.mnemonic?_ldi (m : OpcodeMap) : m.mnemonic? 0x82 = some .LDI := rfl

end Sys2Proof

namespace Sys2Proof.Machine

open Sys2Proof.Certificates

theorem sameRegsBut_writeReg (s : State) (i : RegIdx) (v : Byte) : SameRegsBut [i] s (s.writeReg i v) := fun _ hj =>
  State.reg_writeReg_other s v (List.ne_of_not_mem_cons hj)

/-! ## LDI -/

theorem exec_ldi_regByte (s : State) (r : RegIdx) (imm : Byte) :
    exec (.ldi (regByte r) imm) s = .next ((s.writeReg r imm).advance 3) :=
  exec_of_instrBody_ok (ldiBody_ok_iff.mpr ⟨r, rfl, rfl⟩)

theorem ldiBody_bad_register {o : Byte} (imm : Byte) (s : State) (h : 7 < o.toNat) :
    ldiBody o imm s = .error (.regIndex o) := by
  rw [ldiBody, regOperand_bad h, error_bind]

/-- LDI has two operand bytes; the first of them that cannot be read gives the fault of the fetch. -/
theorem State.fetchInstr_ldi_error (m : OpcodeMap) {s : State} {f : Fault} (hop : s.memRead s.pc.toNat = .ok 0x82)
    (hf : s.memRead (s.pc.toNat + 1) = .error f ∨
      (∃ o, s.memRead (s.pc.toNat + 1) = .ok o) ∧ s.memRead (s.pc.toNat + 2) = .error f) :
    s.fetchInstr m = .error f := by
  have hldi := m.mnemonic?_ldi
  rcases hf with hf | ⟨hfirst, hf⟩
  · exact State.fetchInstr_of_operand_error hop hldi le_rfl (by decide) hf fun _ _ _ => by omega
  · refine State.fetchInstr_of_operand_error hop hldi one_le_two (by decide) hf fun n hpos hn => ?_
    obtain rfl : n = 1 := by omega
    exact hfirst

/-- Settles O19: a register operand lets LDI finish with one register written, and the fetch raises before it. -/
theorem ldiLoadsTheImmediate : Obligations.LdiLoadsTheImmediate :=
  ⟨fun _ _ _ => rfl,
    fun s r imm => ⟨_, exec_ldi_regByte s r imm, State.reg_writeReg_same s r imm, rfl, sameRegsBut_writeReg s r imm,
      rfl, rfl, sameMemBut_of_mem_eq rfl, rfl, rfl⟩,
    fun s _ imm ho => raises_of_instrBody_error (ldiBody_bad_register imm s ho),
    fun m _ _ hr hop hf => stepWith_of_fetch_error hr (State.fetchInstr_ldi_error m hop hf)⟩

/-! ## PRN -/

theorem exec_prn_of_holds {s : State} {r : RegIdx} {v : Byte} (hv : Holds s r v) :
    exec (.prn (regByte r)) s = .next ((s.emit v).advance 2) :=
  exec_of_instrBody_ok (prnBody_ok_iff.mpr ⟨r, v, rfl, hv, rfl⟩)

theorem prnBody_bad_register {o : Byte} (s : State) (h : 7 < o.toNat) : prnBody o s = .error (.regIndex o) := by
  rw [prnBody, regOperand_bad h, error_bind]

theorem prnBody_undefined {s : State} {r : RegIdx} (h : Undefined s r) :
    prnBody (regByte r) s = .error (.uninitReg r) := by
  rw [prnBody, regOperand_regByte, ok_bind, State.readReg_of_undefined h, error_bind]

/-- Settles O20: a defined register lets PRN finish with its value emitted; the operand check raises first, then the
read. -/
theorem prnEmitsTheRegister : Obligations.PrnEmitsTheRegister :=
  ⟨fun _ _ => rfl,
    fun _ _ _ hv => ⟨_, exec_prn_of_holds hv, rfl, rfl, fun _ _ => rfl, rfl, sameMemBut_of_mem_eq rfl, rfl, rfl⟩,
    fun s _ ho => raises_of_instrBody_error (prnBody_bad_register s ho),
    fun _ _ hr => raises_of_instrBody_error (prnBody_undefined hr)⟩

end Sys2Proof.Machine
end

section
/-! PROOFS. The stack instructions: what PUSH and POP leave in the next state, what they raise, and the PUSH-POP law
(43_stack.md R150 to R154). -/

namespace Sys2Proof.Machine

open Sys2Proof.Certificates

/-! ## Registers written on the way -/

/-- What a register holds after a write to a register that may be the same one. -/
theorem holds_writeReg {s : State} {i j : RegIdx} {v w : Byte} (hother : j ≠ i → Holds s j v) (hsame : j = i → v = w) :
    Holds (s.writeReg i w) j v := by
  by_cases hj : j = i
  · subst hj
    rw [hsame rfl]
    exact State.reg_writeReg_same s j w
  · rw [Holds, State.reg_writeReg_other s w hj]
    exact hother hj

theorem ne_of_holds_of_undefined {s : State} {i j : RegIdx} {v : Byte} (hi : Holds s i v) (hj : Undefined s j) :
    j ≠ i := by
  rintro rfl
  rw [Undefined, hi] at hj
  cases hj

/-- A write to a listed register keeps a register frame. -/
theorem sameRegsBut_writeReg_of_mem {js : List RegIdx} {s t : State} (h : SameRegsBut js s t) {i : RegIdx} (v : Byte)
    (hi : i ∈ js) : SameRegsBut js s (t.writeReg i v) := fun j hj =>
  (State.reg_writeReg_other t v (ne_of_mem_of_not_mem hi hj).symm).trans (h j hj)

/-! ## PUSH -/

theorem pushAddress_toNat_add_one {sp : Byte} (h0 : sp ≠ 0) : (pushAddress sp).toNat + 1 = sp.toNat := by
  unfold pushAddress
  bv_omega

/-- The register is read after the decrement (43_stack.md R150; D23). -/
theorem exec_push_of_holds {s : State} {r : RegIdx} {sp v : Byte} (hsp : Holds s spIdx sp) (h0 : sp ≠ 0)
    (hv : Holds (s.writeReg spIdx (pushAddress sp)) r v) :
    exec (.push (regByte r)) s =
      .next (((s.writeReg spIdx (pushAddress sp)).store (pushAddress sp).toNat v).advance 2) :=
  exec_of_instrBody_ok (pushBody_ok_iff.mpr ⟨r, sp, v, rfl, hsp, h0, hv, rfl⟩)

theorem pushBody_bad_register {o : Byte} (s : State) (h : 7 < o.toNat) : pushBody o s = .error (.regIndex o) := by
  rw [pushBody, regOperand_bad h, error_bind]

theorem pushBody_sp_zero {s : State} (r : RegIdx) (hsp : Holds s spIdx 0) :
    pushBody (regByte r) s = .error (.stackRange 0) := by
  rw [pushBody, regOperand_regByte, ok_bind, State.spForPush_zero hsp, error_bind]

/-- The decrement defines R7 and no other register, so it does not hide that the pushed one is undefined. -/
theorem pushBody_undefined {s : State} {r : RegIdx} {sp : Byte} (hsp : Holds s spIdx sp) (h0 : sp ≠ 0)
    (hr : Undefined s r) : pushBody (regByte r) s = .error (.uninitReg r) := by
  have hne : r ≠ spIdx := ne_of_holds_of_undefined hsp hr
  simp only [pushBody, regOperand_regByte, ok_bind, State.spForPush_ok_iff.mpr ⟨hsp, h0⟩,
    State.readReg_writeReg_other s _ hne, State.readReg_of_undefined hr, error_bind]

/-- Settles O25: a finished PUSH writes SP, the cell below the stack and the pc, and each of its three checks raises
when those before it pass. -/
theorem pushStoresBelowTheStack : Obligations.PushStoresBelowTheStack :=
  ⟨fun _ _ => rfl,
    fun s _ sp _ hsp h0 hother hself => ⟨_, exec_push_of_holds hsp h0 (holds_writeReg hother hself),
      State.reg_writeReg_same s spIdx (sp - 1), Memory.read?_write_same _ _ _, pushAddress_toNat_add_one h0, rfl,
      sameRegsBut_writeReg s spIdx _, sameMemBut_of_mem_eq_write rfl, rfl, rfl, rfl, rfl⟩,
    fun s _ ho => raises_of_instrBody_error (pushBody_bad_register s ho),
    fun _ r hsp => raises_of_instrBody_error (pushBody_sp_zero r hsp),
    fun _ _ _ hsp h0 hr => raises_of_instrBody_error (pushBody_undefined hsp h0 hr)⟩

/-! ## POP -/

/-- What a finished POP leaves, `sp₁` being what R7 holds once the popped byte is written (43_stack.md R152; D23). -/
theorem exec_pop_of_holds {s : State} {r : RegIdx} {sp v sp₁ : Byte} (hsp : Holds s spIdx sp)
    (hcell : Memory.read? s.mem sp.toNat = some v) (hsp₁ : Holds (s.writeReg r v) spIdx sp₁) (h255 : sp₁ ≠ 255) :
    exec (.pop (regByte r)) s = .next (((s.writeReg r v).writeReg spIdx (sp₁ + 1)).advance 2) :=
  exec_of_instrBody_ok (popBody_ok_iff.mpr ⟨r, sp, v, sp₁, rfl, hsp, hcell, hsp₁, h255, rfl⟩)

/-- The frame of POP r is that of its two register writes, whether r is R7 or not. -/
theorem sameRegsBut_pop {js : List RegIdx} (s : State) {r : RegIdx} (v w : Byte) (hr : r ∈ js) (hsp : spIdx ∈ js) :
    SameRegsBut js s ((s.writeReg r v).writeReg spIdx w) :=
  have hs : SameRegsBut js s s := fun _ _ => rfl
  sameRegsBut_writeReg_of_mem (sameRegsBut_writeReg_of_mem hs v hr) w hsp

theorem popBody_bad_register {o : Byte} (s : State) (h : 7 < o.toNat) : popBody o s = .error (.regIndex o) := by
  rw [popBody, regOperand_bad h, error_bind]

theorem popBody_undefined_cell {s : State} {sp : Byte} (r : RegIdx) (hsp : Holds s spIdx sp)
    (hcell : Memory.read? s.mem sp.toNat = none) : popBody (regByte r) s = .error (.uninitMem sp.toNat) := by
  rw [popBody, regOperand_regByte, ok_bind, State.readReg_of_defined hsp, ok_bind, State.memRead_byte_undefined hcell,
    error_bind]

theorem popBody_stack_top {s : State} {r : RegIdx} {sp v : Byte} (hsp : Holds s spIdx sp)
    (hcell : Memory.read? s.mem sp.toNat = some v) (htop : Holds (s.writeReg r v) spIdx 255) :
    popBody (regByte r) s = .error (.stackRange 255) := by
  simp only [popBody, regOperand_regByte, ok_bind, State.readReg_of_defined hsp, State.memRead_byte hcell,
    State.spAfterPop_top htop, error_bind]

theorem holds_spIdx_writeReg_other {s : State} {r : RegIdx} {sp : Byte} (v : Byte) (hr : r ≠ spIdx)
    (hsp : Holds s spIdx sp) : Holds (s.writeReg r v) spIdx sp :=
  (State.reg_writeReg_other s v hr.symm).trans hsp

/-- The increment of SP leaves the popped byte in a register other than R7. -/
theorem holds_writeReg_writeReg_spIdx (s : State) {r : RegIdx} (v w : Byte) (hr : r ≠ spIdx) :
    Holds ((s.writeReg r v).writeReg spIdx w) r v :=
  (State.reg_writeReg_other _ w hr).trans (State.reg_writeReg_same s r v)

/-- Settles O26: R7 as it stands at the increment, SP or the byte popped into R7, decides between the finished POP and
STACK_RANGE; the cell is read before. -/
theorem popLoadsFromTheStack : Obligations.PopLoadsFromTheStack :=
  ⟨fun _ _ => rfl,
    fun s _ _ v hr hsp hcell h255 => ⟨_, exec_pop_of_holds hsp hcell (holds_spIdx_writeReg_other v hr hsp) h255,
      holds_writeReg_writeReg_spIdx s v _ hr, State.reg_writeReg_same _ spIdx _, rfl,
      sameRegsBut_pop s v _ (by simp) (by simp), sameMemBut_of_mem_eq rfl, rfl, rfl, rfl, rfl⟩,
    fun s _ v hsp hcell h255 => ⟨_, exec_pop_of_holds hsp hcell (State.reg_writeReg_same s spIdx v) h255,
      State.reg_writeReg_same _ spIdx _, rfl, sameRegsBut_pop s v _ (by simp) (by simp), sameMemBut_of_mem_eq rfl, rfl,
      rfl, rfl, rfl⟩,
    fun s _ ho => raises_of_instrBody_error (popBody_bad_register s ho),
    fun _ r _ hsp hcell => raises_of_instrBody_error (popBody_undefined_cell r hsp hcell),
    fun _ _ v hr hsp hcell =>
      raises_of_instrBody_error (popBody_stack_top hsp hcell (holds_spIdx_writeReg_other v hr hsp)),
    fun s _ hsp hcell =>
      raises_of_instrBody_error (popBody_stack_top hsp hcell (State.reg_writeReg_same s spIdx 255))⟩

/-! ## The PUSH-POP law -/

theorem regByte_injective : Function.Injective regByte := fun i j h =>
  Fin.ext (by rw [← regByte_toNat i, h, regByte_toNat j])

/-- An instruction that enters no fault has finished its body. -/
theorem instrBody_of_exec_safe {i : Instr} {s t : State} (h : exec i s = .next t) (ht : t.Safe) :
    instrBody i s = .ok t := by
  rcases exec_cases h with hbody | ⟨f, -, rfl⟩
  · exact hbody
  · exact absurd (State.enterFault_status s f) ht

/-- A PUSH of a register other than R7 that enters no fault has put the register's value at the new SP. -/
theorem push_safe_of_ne_spIdx {s t : State} {r : RegIdx} (hr : r ≠ spIdx) (h : exec (.push (regByte r)) s = .next t)
    (ht : t.Safe) :
    ∃ sp v, Holds s spIdx sp ∧ Holds s r v ∧ Holds t spIdx (sp - 1) ∧
      Memory.read? t.mem (sp - 1).toNat = some v := by
  obtain ⟨i, sp, v, hri, hsp, -, hv, rfl⟩ := pushBody_ok_iff.mp (instrBody_of_exec_safe h ht)
  obtain rfl := regByte_injective hri
  rw [State.reg_writeReg_other s _ hr] at hv
  exact ⟨sp, v, hsp, hv, State.reg_writeReg_same s spIdx _, Memory.read?_write_same _ _ _⟩

/-- A POP into a register other than R7 that enters no fault has loaded the byte at SP. -/
theorem pop_safe_of_ne_spIdx {t u : State} {q : RegIdx} {sp v : Byte} (hq : q ≠ spIdx) (hsp : Holds t spIdx sp)
    (hcell : Memory.read? t.mem sp.toNat = some v) (h : exec (.pop (regByte q)) t = .next u) (hu : u.Safe) :
    Holds u q v ∧ Holds u spIdx (sp + 1) := by
  obtain ⟨i, sp', v', sp₁, hqi, hsp', hcell', hsp₁, -, rfl⟩ := popBody_ok_iff.mp (instrBody_of_exec_safe h hu)
  obtain rfl := regByte_injective hqi
  cases hsp.symm.trans hsp'
  cases hcell.symm.trans hcell'
  cases hsp₁.symm.trans (holds_spIdx_writeReg_other v hq hsp)
  exact ⟨holds_writeReg_writeReg_spIdx t v _ hq, State.reg_writeReg_same _ spIdx _⟩

/-- Settles O33: POP reads the cell PUSH wrote, and its increment undoes the decrement. -/
theorem pushPopLaw : Obligations.PushPopLaw := by
  intro s t u r q _ hr hq hpush ht hpop hu
  obtain ⟨sp, v, hsp, hv, hsp', hcell⟩ := push_safe_of_ne_spIdx hr hpush ht
  obtain ⟨huv, husp⟩ := pop_safe_of_ne_spIdx hq hsp' hcell hpop hu
  rw [BitVec.sub_add_cancel] at husp
  exact ⟨huv.trans hv.symm, husp.trans hsp.symm⟩

end Sys2Proof.Machine
end

section
/-! PROOFS. Control transfer: where HLT, JMP, JEQ, JNE, CALL and RET leave the pc, what else they change and what they
raise, and the CALL-RET law (44_control.md R160 to R170). -/

namespace Sys2Proof.Machine

open Sys2Proof.Certificates

/-- Settles O32: the body of HLT changes the run status and cannot raise. -/
theorem hltHalts : Obligations.HltHalts := ⟨fun _ => rfl, fun _ => exec_of_instrBody_ok rfl⟩

/-! ## Jumps: one body, taken or not -/

/-- A target loses nothing in the wider pc (44_control.md R165). -/
theorem State.jump_pc_toNat (s : State) (v : Byte) : (s.jump v).pc.toNat = v.toNat :=
  BitVec.toNat_setWidth_of_le (by decide)

theorem jumpIfBody_bad_register {o : Byte} (taken : Bool) (s : State) (h : 7 < o.toNat) :
    jumpIfBody taken o s = .error (.regIndex o) := by
  rw [jumpIfBody, regOperand_bad h, error_bind]

theorem jumpIfBody_undefined {s : State} {r : RegIdx} (h : Undefined s r) :
    jumpIfBody true (regByte r) s = .error (.uninitReg r) := by
  rw [jumpIfBody, regOperand_regByte, ok_bind, if_pos rfl, State.readReg_of_undefined h, error_bind]

/-- JEQ is taken when E is set (44_control.md R166). -/
theorem instrBody_jeq {s : State} {e : Bool} (o : Byte) (he : s.flags.e = e) :
    instrBody (.jeq o) s = jumpIfBody e o s := by
  rw [instrBody, he]

/-- JNE is taken when E is clear (44_control.md R168). -/
theorem instrBody_jne {s : State} {e : Bool} (o : Byte) (he : s.flags.e = e) :
    instrBody (.jne o) s = jumpIfBody (!e) o s := by
  rw [instrBody, he]

/-- An instruction that jumps to a defined register changes the pc alone. -/
theorem exec_jumps {i : Instr} {s : State} {r : RegIdx} {v : Byte} (hi : instrBody i s = jumpIfBody true (regByte r) s)
    (hv : Holds s r v) :
    ∃ t, exec i s = .next t ∧ t.pc.toNat = v.toNat ∧ SameRegsBut [] s t ∧ SameMemBut [] s t ∧ t.flags = s.flags ∧
      t.output = s.output ∧ SameStatus s t :=
  have hbody : jumpIfBody true (regByte r) s = .ok (s.jump v) := jumpIfBody_ok_iff.mpr ⟨r, rfl, .inl ⟨rfl, v, hv, rfl⟩⟩
  ⟨s.jump v, exec_of_instrBody_ok (hi.trans hbody), State.jump_pc_toNat s v, fun _ _ => rfl, sameMemBut_of_mem_eq rfl,
    rfl, rfl, rfl, rfl⟩

/-- A jump that is not taken changes the pc alone, whatever its register holds. -/
theorem exec_falls_through {i : Instr} {s : State} {r : RegIdx} (hi : instrBody i s = jumpIfBody false (regByte r) s) :
    ∃ t, exec i s = .next t ∧ t.pc = s.pc + 2 ∧ SameRegsBut [] s t ∧ SameMemBut [] s t ∧ t.flags = s.flags ∧
      t.output = s.output ∧ SameStatus s t :=
  have hbody : jumpIfBody false (regByte r) s = .ok (s.advance 2) := jumpIfBody_ok_iff.mpr ⟨r, rfl, .inr ⟨rfl, rfl⟩⟩
  ⟨s.advance 2, exec_of_instrBody_ok (hi.trans hbody), rfl, fun _ _ => rfl, sameMemBut_of_mem_eq rfl, rfl, rfl, rfl,
    rfl⟩

/-- Settles O29: JMP is the jump that is always taken. -/
theorem jmpGoesToTheRegister : Obligations.JmpGoesToTheRegister :=
  ⟨fun _ _ => rfl, fun _ _ _ hv => exec_jumps rfl hv,
    fun s _ ho => raises_of_instrBody_error (jumpIfBody_bad_register true s ho),
    fun _ _ hr => raises_of_instrBody_error (jumpIfBody_undefined hr)⟩

/-- Settles O30: E decides which of the two bodies jumps, and a taken or untaken jump goes alike in both. -/
theorem jeqJneLaw : Obligations.JeqJneLaw :=
  ⟨fun _ _ _ he hv => exec_jumps (instrBody_jeq _ he) hv, fun _ _ he => exec_falls_through (instrBody_jne _ he),
    fun _ _ he => exec_falls_through (instrBody_jeq _ he), fun _ _ _ he hv => exec_jumps (instrBody_jne _ he) hv⟩

/-- Settles O31: the operand check comes before E is looked at, the read of the register after. -/
theorem conditionalJumpsRaise : Obligations.ConditionalJumpsRaise :=
  ⟨fun s _ ho => ⟨raises_of_instrBody_error (jumpIfBody_bad_register s.flags.e s ho),
      raises_of_instrBody_error (jumpIfBody_bad_register (!s.flags.e) s ho)⟩,
    fun _ _ he hr => raises_of_instrBody_error ((instrBody_jeq _ he).trans (jumpIfBody_undefined hr)),
    fun _ _ he hr => raises_of_instrBody_error ((instrBody_jne _ he).trans (jumpIfBody_undefined hr))⟩

/-! ## CALL -/

/-- The target register is read after the decrement (44_control.md R160; D23). -/
theorem exec_call_of_holds {s : State} {r : RegIdx} {sp v : Byte} (hsp : Holds s spIdx sp) (h0 : sp ≠ 0)
    (hra : returnAddress s ≤ 255) (hv : Holds (s.writeReg spIdx (pushAddress sp)) r v) :
    exec (.call (regByte r)) s =
      .next (((s.writeReg spIdx (pushAddress sp)).store (pushAddress sp).toNat
        (BitVec.ofNat 8 (returnAddress s))).jump v) :=
  exec_of_instrBody_ok (callBody_ok_iff.mpr ⟨r, sp, v, rfl, hsp, h0, hra, hv, rfl⟩)

theorem callBody_bad_register {o : Byte} (s : State) (h : 7 < o.toNat) : callBody o s = .error (.regIndex o) := by
  rw [callBody, regOperand_bad h, error_bind]

theorem callBody_sp_zero {s : State} (r : RegIdx) (hsp : Holds s spIdx 0) :
    callBody (regByte r) s = .error (.stackRange 0) := by
  rw [callBody, regOperand_regByte, ok_bind, State.spForPush_zero hsp, error_bind]

theorem callBody_return_address {s : State} {sp : Byte} (r : RegIdx) (hsp : Holds s spIdx sp) (h0 : sp ≠ 0)
    (hra : 255 < returnAddress s) : callBody (regByte r) s = .error (.retAddrRange (returnAddress s)) := by
  rw [callBody, regOperand_regByte, ok_bind, State.spForPush_ok_iff.mpr ⟨hsp, h0⟩, ok_bind, if_pos hra]

/-- Neither the decrement nor the store defines a register other than R7. -/
theorem callBody_undefined {s : State} {r : RegIdx} {sp : Byte} (hsp : Holds s spIdx sp) (h0 : sp ≠ 0)
    (hra : returnAddress s ≤ 255) (hr : Undefined s r) : callBody (regByte r) s = .error (.uninitReg r) := by
  have hr' : Undefined ((s.writeReg spIdx (pushAddress sp)).store (pushAddress sp).toNat
      (BitVec.ofNat 8 (returnAddress s))) r := by
    rwa [Undefined, State.store_reg, State.reg_writeReg_other s _ (ne_of_holds_of_undefined hsp hr)]
  simp only [callBody, regOperand_regByte, ok_bind, State.spForPush_ok_iff.mpr ⟨hsp, h0⟩, if_neg (Nat.not_lt.mpr hra),
    State.memWrite_byte, State.readReg_of_undefined hr', error_bind]

/-- Settles O27: a finished CALL writes SP, the cell below the stack and the pc, and each of its four checks raises when
those before it pass. -/
theorem callSavesTheReturnAddress : Obligations.CallSavesTheReturnAddress := by
  refine ⟨fun _ _ => rfl, ?_, fun s _ ho => raises_of_instrBody_error (callBody_bad_register s ho),
    fun _ r hsp => raises_of_instrBody_error (callBody_sp_zero r hsp),
    fun _ r _ hsp h0 hra => raises_of_instrBody_error (callBody_return_address r hsp h0 hra),
    fun _ _ _ hsp h0 hra hr => raises_of_instrBody_error (callBody_undefined hsp h0 hra hr)⟩
  intro s r sp v hsp h0 hra hother hself
  have hv : Holds (s.writeReg spIdx (pushAddress sp)) r v := holds_writeReg hother hself
  obtain ⟨ra, hra', hcell⟩ := (Completed.call hsp h0 hra hv).call_stores hsp
  exact ⟨_, ra, exec_call_of_holds hsp h0 hra hv, State.reg_writeReg_same s spIdx (sp - 1), hcell, hra',
    pushAddress_toNat_add_one h0, State.jump_pc_toNat _ v, sameRegsBut_writeReg s spIdx _,
    sameMemBut_of_mem_eq_write rfl, rfl, rfl, rfl, rfl⟩

/-! ## RET -/

theorem exec_ret_of_holds {s : State} {sp v : Byte} (hsp : Holds s spIdx sp)
    (hcell : Memory.read? s.mem sp.toNat = some v) (h255 : sp ≠ 255) :
    exec .ret s = .next ((s.writeReg spIdx (sp + 1)).jump v) :=
  exec_of_instrBody_ok (retBody_ok_iff.mpr ⟨sp, v, hsp, hcell, h255, rfl⟩)

theorem retBody_undefined_cell {s : State} {sp : Byte} (hsp : Holds s spIdx sp)
    (hcell : Memory.read? s.mem sp.toNat = none) : retBody s = .error (.uninitMem sp.toNat) := by
  rw [retBody, State.readReg_of_defined hsp, ok_bind, State.memRead_byte_undefined hcell, error_bind]

theorem retBody_stack_top {s : State} {v : Byte} (hsp : Holds s spIdx 255)
    (hcell : Memory.read? s.mem 255 = some v) : retBody s = .error (.stackRange 255) := by
  rw [retBody, State.readReg_of_defined hsp, ok_bind, State.memRead_byte hcell, ok_bind, State.spAfterPop_top hsp,
    error_bind]

/-- Settles O28: a finished RET writes SP and the pc; the read of the cell raises before the increment. -/
theorem retTakesThePcFromTheStack : Obligations.RetTakesThePcFromTheStack :=
  ⟨fun _ => rfl,
    fun s sp v hsp hcell h255 => ⟨_, exec_ret_of_holds hsp hcell h255, State.jump_pc_toNat _ v,
      State.reg_writeReg_same s spIdx (sp + 1), sameRegsBut_writeReg s spIdx _, sameMemBut_of_mem_eq rfl, rfl, rfl, rfl,
      rfl⟩,
    fun _ _ hsp hcell => raises_of_instrBody_error (retBody_undefined_cell hsp hcell),
    fun _ _ hsp hcell => raises_of_instrBody_error (retBody_stack_top hsp hcell)⟩

/-! ## The CALL-RET law -/

/-- An instruction that enters no fault has completed. -/
theorem completed_of_exec_safe {i : Instr} {s t : State} (h : exec i s = .next t) (ht : t.Safe) : Completed i s t :=
  completed_of_instrBody_ok (instrBody_of_exec_safe h ht)

theorem Completed.call_decrements_sp {r : Byte} {s t : State} (h : Completed (.call r) s t) :
    ∃ sp, Holds s spIdx sp ∧ Holds t spIdx (pushAddress sp) := by
  cases h with
  | call hsp => exact ⟨_, hsp, State.reg_writeReg_same s spIdx _⟩

theorem Completed.ret_pops {s t : State} {sp v : Byte} (h : Completed .ret s t) (hsp : Holds s spIdx sp)
    (hcell : Memory.read? s.mem sp.toNat = some v) : t.pc.toNat = v.toNat ∧ Holds t spIdx (sp + 1) := by
  cases h with
  | ret hsp' hcell' =>
    cases hsp.symm.trans hsp'
    cases hcell.symm.trans hcell'
    exact ⟨State.jump_pc_toNat _ v, State.reg_writeReg_same s spIdx _⟩

/-- Settles O34: RET reads the return address CALL stored, and its increment undoes the decrement. -/
theorem callRetLaw : Obligations.CallRetLaw := by
  intro s t u v r sp _ hcall ht hspt hspu hcell hret hv
  have hc := completed_of_exec_safe hcall ht
  obtain ⟨sp₀, hsp₀, hsp⟩ := hc.call_decrements_sp
  obtain ⟨ra, hra, hstored⟩ := hc.call_stores hsp₀
  cases hspt.symm.trans hsp
  obtain ⟨hpc, hspv⟩ := (completed_of_exec_safe hret hv).ret_pops hspu (hcell.trans hstored)
  rw [pushAddress, BitVec.sub_add_cancel] at hspv
  exact ⟨hpc.trans hra, hspv.trans hsp₀.symm⟩

end Sys2Proof.Machine
end

section
/-! PROOFS. Fault entry (60_exceptions.md R182 to R184, R190): what each cause writes to the fault record, that a step
always answers a state, and that a running core ends Faulted by a fault entry alone. -/

namespace Sys2Proof.Machine

open Sys2Proof.Certificates

/-! ## The codes and infos -/

/-- A byte loses nothing in the wider info field. -/
theorem toNat_byte_setWidth (b : Byte) : (b.setWidth 9).toNat = b.toNat :=
  BitVec.toNat_setWidth_of_le (by decide)

theorem toNat_pcWord_ofNat {n : Nat} (h : n < 512) : (BitVec.ofNat 9 n).toNat = n :=
  (BitVec.toNat_ofNat n 9).trans (Nat.mod_eq_of_lt h)

theorem Fault.info_loadError {n : Nat} (h : n < 512) : (Fault.loadError n).info = BitVec.ofNat 9 n := if_pos h

/-- Settles O43: the codes are the table's, and the info is a byte widened or a number that fits the 9 bits. -/
theorem faultCodesAndInfo : Obligations.FaultCodesAndInfo :=
  ⟨fun op => ⟨rfl, toNat_byte_setWidth op⟩, rfl, fun _ ha => ⟨rfl, toNat_pcWord_ofNat (by omega)⟩,
    fun o => ⟨rfl, toNat_byte_setWidth o⟩, fun sp => ⟨rfl, toNat_byte_setWidth sp⟩,
    fun _ ha => ⟨rfl, toNat_pcWord_ofNat (by omega)⟩, fun r => ⟨rfl, toNat_pcWord_ofNat (by omega)⟩,
    fun _ ha => ⟨rfl, toNat_pcWord_ofNat (by omega)⟩,
    fun _ hn => ⟨rfl, by rw [Fault.info_loadError hn, toNat_pcWord_ofNat hn]⟩⟩

/-! ## One instruction -/

/-- Settles O40: of the finished instructions only HLT changes the status, and what does not finish enters a fault. -/
theorem onlyHltAndFaultsChangeTheStatus : Obligations.OnlyHltAndFaultsChangeTheStatus := by
  intro i s t h
  rcases completed_or_enterFault h with hc | ⟨f, -, ht⟩
  · rcases hc.status with hsame | ⟨hi, hhalted⟩
    · exact .inl ⟨hsame, hc.fault⟩
    · exact .inr (.inl ⟨hi, hhalted, hc.fault⟩)
  · exact .inr (.inr ⟨f, ht⟩)

theorem Completed.safe {i : Instr} {s t : State} (h : Completed i s t) (hs : s.Safe) : t.Safe := by
  rcases h.status with ht | ⟨-, ht⟩
  · rwa [State.Safe, ht]
  · simp [State.Safe, ht]

/-! ## One step -/

/-- A running core ends Faulted only by entering a fault that a step can raise. -/
theorem enterFault_of_stepWith_faulted {m : OpcodeMap} {s t : State} (hr : s.status = .running)
    (h : stepWith m s = .next t) (ht : t.status = .faulted) : ∃ f, f.code ∈ stepCodes ∧ t = s.enterFault f := by
  rcases stepWith_cases h with ⟨hnot, -⟩ | ⟨-, i, -, hc⟩ | ⟨-, hfault⟩
  · exact absurd hr hnot
  · exact absurd ht (hc.safe (by simp [State.Safe, hr]))
  · exact hfault

/-- Settles O44: a fault entry writes the record from its fault and the pc, and leaves the rest. -/
theorem faultsArePrecise : Obligations.FaultsArePrecise := by
  intro m s t hr h ht
  obtain ⟨f, -, rfl⟩ := enterFault_of_stepWith_faulted hr h ht
  exact ⟨f, rfl, rfl, rfl, rfl, rfl, rfl, rfl, rfl⟩

/-- Settles O45: the fault entered is one that a step can raise. -/
theorem stepRaisesOnlyItsCodes : Obligations.StepRaisesOnlyItsCodes := by
  intro m s t hr h ht
  obtain ⟨f, hcode, rfl⟩ := enterFault_of_stepWith_faulted hr h ht
  exact hcode

/-! ## Totality -/

theorem exists_next_of_commit (s : State) (body : Except Fault State) : ∃ t, commit s body = .next t := by
  cases body with
  | ok t => exact ⟨t, commit_ok s t⟩
  | error f => exact ⟨s.enterFault f, commit_error s f⟩

/-- Settles O46: no step is taken, or the fetch enters its fault, or the instruction is committed or discarded. -/
theorem everyStateHasANextState : Obligations.EveryStateHasANextState := by
  intro m s
  by_cases hr : s.status = .running
  · cases hf : s.fetchInstr m with
    | ok i =>
      rw [stepWith_of_fetch_ok hr hf, exec_eq_commit]
      exact exists_next_of_commit s (instrBody i s)
    | error f => exact ⟨s.enterFault f, stepWith_of_fetch_error hr hf⟩
  · exact ⟨s, stepWith_of_not_running hr⟩

end Sys2Proof.Machine
end

section
/-! PROOFS. What a load leaves in memory, and that every host input keeps the invariant (70_reset_and_hazards.md R210
to R213). -/

namespace Sys2Proof.Machine

open Sys2Proof.Certificates

/-! ## Memory after a load -/

/-- A load writes no cell below its first address and none past its image. -/
theorem Memory.read?_loadAt_outside (m : Memory) {a b : Nat} {bs : List Byte} (h : b < a ∨ a + bs.length ≤ b) :
    Memory.read? (Memory.loadAt m a bs) b = Memory.read? m b := by
  induction bs generalizing m a with
  | nil => rfl
  | cons v bs ih =>
    simp only [List.length_cons] at h
    rw [Memory.loadAt, ih _ (by omega), Memory.read?_write_other m v (by omega)]

/-- The byte at `a` is written first, and the rest of the image goes to the addresses above it. -/
theorem Memory.read?_loadAt_image (m : Memory) (a : Nat) {bs : List Byte} {k : Nat} (h : k < bs.length) :
    Memory.read? (Memory.loadAt m a bs) (a + k) = some bs[k] := by
  induction bs generalizing m a k with
  | nil => cases h
  | cons v bs ih =>
    rw [Memory.loadAt]
    cases k with
    | zero => rw [Memory.read?_loadAt_outside _ (.inl (by omega)), Nat.add_zero, Memory.read?_write_same]; rfl
    | succ k => rw [← Nat.add_assoc, Nat.add_right_comm]; exact ih _ (a + 1) (Nat.lt_of_succ_lt_succ h)

/-- A running core whose memory lists no cell at the pc enters `UNINIT_MEM` (20_memory.md R51; D12). -/
theorem stepWith_of_undefined_opcode {s : State} (m : OpcodeMap) (hr : s.status = .running) (hpc : s.pc.toNat ≤ 255)
    (hcell : Memory.read? s.mem s.pc.toNat = none) : stepWith m s = .next (s.enterFault (.uninitMem s.pc.toNat)) :=
  stepWith_of_fetch_error hr (State.fetchInstr_of_opcode_error (State.memRead_of_undefined hpc hcell))

/-- Settles O3: an accepted image goes to memory by `loadAt`, a refused one to the fault record, and an empty one
leaves the memory of reset. -/
theorem loadWritesTheImageOrRefusesIt : Obligations.LoadWritesTheImageOrRefusesIt := by
  refine ⟨fun s image hi hlen => ?_, fun s image hi hlen => ?_,
    fun m => stepWith_of_undefined_opcode m rfl (Nat.zero_le _) rfl⟩
  · rw [State.load_of_le hi hlen]
    refine ⟨fun k hk => ?_, fun a ha => Memory.read?_loadAt_outside s.mem (.inr (by omega)), rfl⟩
    simpa using Memory.read?_loadAt_image s.mem 0 hk
  · rw [State.load_of_gt hi hlen]
    refine ⟨rfl, rfl, rfl, fun hfits => ?_⟩
    rw [State.refuseLoad_fault, Fault.info_loadError hfits, toNat_pcWord_ofNat hfits]

/-! ## Start -/

/-- Settles O2: start asks for Idle and writes the status alone. -/
theorem startLeavesIdleOnly : Obligations.StartLeavesIdleOnly :=
  ⟨fun _ => State.start_of_idle, fun _ => State.start_of_not_idle, by rw [State.start_of_idle rfl]; rfl⟩

/-! ## The invariant -/

theorem State.Inv.refuseLoad {s : State} (hs : s.Inv) (len : Nat) : (s.refuseLoad len).Inv where
  memory := hs.memory
  sp := hs.sp
  pc := hs.pc
  record := by
    rw [State.RecordMatches, if_pos (State.refuseLoad_status s len)]
    exact (by decide : (9 : BitVec 4) ∈ [1, 3, 4, 5, 6, 7, 8, 9])

theorem State.Inv.load {s : State} (hs : s.Inv) (image : List Byte) : (s.load image).Inv := by
  by_cases hi : s.status = .idle
  · rcases le_or_gt image.length 256 with h | h
    · rw [State.load_of_le hi h]
      exact ⟨Memory.wf_loadAt hs.memory (by omega), hs.sp, hs.pc, hs.record⟩
    · rw [State.load_of_gt hi h]
      exact hs.refuseLoad _
  · rwa [State.load_of_not_idle hi]

theorem State.Inv.loadSource {s : State} (hs : s.Inv) (text : List Char) : (s.loadSource text).Inv := by
  cases hp : parseSource text with
  | some image => rw [State.loadSource_of_parsed s hp]; exact hs.load image
  | none =>
    by_cases hi : s.status = .idle
    · rw [State.loadSource_of_parse_failure hi hp]
      exact hs.refuseLoad 0
    · rwa [State.loadSource_of_not_idle hi]

/-- Neither Idle nor Running is Faulted, so the record is empty before and after. -/
theorem State.Inv.start {s : State} (hs : s.Inv) : s.start.Inv := by
  by_cases hi : s.status = .idle
  · have hnone : s.fault = FaultRecord.none := (State.recordMatches_iff_of_not_faulted (by simp [hi])).mp hs.record
    rw [State.start_of_idle hi]
    exact ⟨hs.memory, hs.sp, hs.pc, (State.recordMatches_iff_of_not_faulted (by simp)).mpr hnone⟩
  · rwa [State.start_of_not_idle hi]

/-- Settles O49: an accepted load keeps memory canonical, a refused one records a code of the load interface, and start
leaves the empty record. -/
theorem hostInputsKeepTheInvariant : Obligations.HostInputsKeepTheInvariant := by
  intro s x hs
  cases x with
  | reset => exact resetMeetsTheInvariant
  | load image => exact hs.load image
  | loadSource text => exact hs.loadSource text
  | start => exact hs.start

end Sys2Proof.Machine
end

section
/-! PROOFS. Lines of program text (70_reset_and_hazards.md R213): what is left of a line without its comment, and that
the literal of a byte reads as the byte. -/

namespace Sys2Proof.Machine

open Sys2Proof.Certificates

/-! ## Comments -/

theorem takeWhile_ne_hash {text : List Char} (h : '#' ∉ text) (rest : List Char) :
    (text ++ rest).takeWhile (· != '#') = text ++ rest.takeWhile (· != '#') :=
  List.takeWhile_append_of_pos fun _ hc => bne_iff_ne.mpr (ne_of_mem_of_not_mem hc h)

theorem stripComment_of_no_hash {line : List Char} (h : '#' ∉ line) : stripComment line = line := by
  have htext : line.takeWhile (· != '#') = line := by simpa using takeWhile_ne_hash h []
  simp [stripComment, htext, h]

theorem stripComment_append_hash {text : List Char} (h : '#' ∉ text) (comment : List Char) :
    stripComment (text ++ '#' :: comment) = text.rdropWhile isBlankChar := by
  have htext : (text ++ '#' :: comment).takeWhile (· != '#') = text := by
    simpa using takeWhile_ne_hash h ('#' :: comment)
  simp [stripComment, htext, List.rdropWhile]

/-! ## What a line stands for -/

theorem parseLine_of_strip_nil {line : List Char} (h : stripComment line = []) : parseLine line = .ignored := by
  simp [parseLine, h]

theorem not_isBlankChar_of_isBinaryDigit {c : Char} (h : isBinaryDigit c = true) : isBlankChar c = false := by
  have hc : c = '0' ∨ c = '1' := by simpa [isBinaryDigit] using h
  rcases hc with rfl | rfl <;> rfl

theorem parseLine_of_strip_digits {line text : List Char} (hstrip : stripComment line = text)
    (hdigits : ∀ c ∈ text, isBinaryDigit c = true) (hlen : text.length = 8) :
    parseLine line = .byte (binaryValue text) := by
  have hblank : text.all isBlankChar = false := by
    obtain ⟨c, hc⟩ := List.exists_mem_of_length_pos (by omega : 0 < text.length)
    exact List.all_eq_false.mpr ⟨c, hc, by simp [not_isBlankChar_of_isBinaryDigit (hdigits c hc)]⟩
  have hbad : text.any (fun c => !isBinaryDigit c && !isBlankChar c) = false :=
    List.any_eq_false.mpr fun c hc => by simp [hdigits c hc]
  simp [parseLine, hstrip, hblank, hbad, List.all_eq_true.mpr hdigits, hlen]

/-! ## The literal of a byte -/

theorem literal_length (b : Byte) : (literal b).length = 8 := rfl

theorem isBinaryDigit_of_mem_literal {b : Byte} {c : Char} (h : c ∈ literal b) : isBinaryDigit c = true := by
  obtain ⟨k, -, rfl⟩ := List.mem_map.mp h
  split <;> rfl

theorem hash_not_mem_literal (b : Byte) : '#' ∉ literal b := fun h =>
  absurd (isBinaryDigit_of_mem_literal h) (by decide)

/-- The white space before a comment is none of the literal's digits. -/
theorem literal_rdropWhile_blank (b : Byte) : (literal b).rdropWhile isBlankChar = literal b :=
  List.rdropWhile_eq_self_iff.mpr fun hl => by
    simp [not_isBlankChar_of_isBinaryDigit (isBinaryDigit_of_mem_literal (List.getLast_mem hl))]

/-- The first `n` digits of the literal of `b`. -/
def literalDigits (b : Byte) (n : Nat) : List Char := (List.range n).map fun k => if b.getMsbD k then '1' else '0'

theorem literal_eq_literalDigits (b : Byte) : literal b = literalDigits b 8 := rfl

theorem literalDigits_succ (b : Byte) (n : Nat) :
    literalDigits b (n + 1) = literalDigits b n ++ [if b.getMsbD n then '1' else '0'] := by
  simp [literalDigits, List.range_succ]

/-- The `n`-th bit of a byte, counted from the top, is the lowest of its upper `n + 1` bits. -/
theorem toNat_getMsbD (b : Byte) {n : Nat} (h : n < 8) :
    (b.getMsbD n).toNat = b.toNat / 2 ^ (7 - n) % 2 := by
  have hbit : b.getMsbD n = b.toNat.testBit (7 - n) := by simp [BitVec.getMsbD, h, BitVec.getLsbD]
  rw [hbit, Nat.toNat_testBit]

theorem toNat_binaryValue_append_digit (cs : List Char) (d : Bool) :
    (binaryValue (cs ++ [if d then '1' else '0'])).toNat = (2 * (binaryValue cs).toNat + d.toNat) % 256 := by
  cases d <;> simp [binaryValue]

/-- Reading the first `n` digits gives the upper `n` bits of the byte. -/
theorem toNat_binaryValue_literalDigits (b : Byte) {n : Nat} (h : n ≤ 8) :
    (binaryValue (literalDigits b n)).toNat = b.toNat / 2 ^ (8 - n) := by
  have hb := b.isLt
  induction n with
  | zero => exact (Nat.div_eq_of_lt hb).symm
  | succ n ih =>
    have hhalf : b.toNat / 2 ^ (8 - n) = b.toNat / 2 ^ (7 - n) / 2 := by
      rw [Nat.div_div_eq_div_mul, ← Nat.pow_succ, show (7 - n).succ = 8 - n by omega]
    have hle := Nat.div_le_self b.toNat (2 ^ (7 - n))
    rw [literalDigits_succ, toNat_binaryValue_append_digit, ih (by omega), hhalf, toNat_getMsbD b h,
      show 8 - (n + 1) = 7 - n by omega]
    omega

theorem binaryValue_literal (b : Byte) : binaryValue (literal b) = b := by
  rw [literal_eq_literalDigits]
  exact BitVec.eq_of_toNat_eq ((toNat_binaryValue_literalDigits b le_rfl).trans (Nat.div_one _))

theorem parseLine_of_strip_literal {line : List Char} {b : Byte} (h : stripComment line = literal b) :
    parseLine line = .byte b := by
  rw [parseLine_of_strip_digits h (fun _ => isBinaryDigit_of_mem_literal) (literal_length b), binaryValue_literal]

/-- Settles O6: without its comment the line is the literal, whose digits read as the byte, or nothing; the bad token
has a character that is no digit. -/
theorem literalLinesParse : Obligations.LiteralLinesParse :=
  ⟨fun b => parseLine_of_strip_literal (stripComment_of_no_hash (hash_not_mem_literal b)),
    fun b c => parseLine_of_strip_literal
      ((stripComment_append_hash (hash_not_mem_literal b) c).trans (literal_rdropWhile_blank b)),
    fun c => parseLine_of_strip_nil (stripComment_append_hash (text := []) List.not_mem_nil c),
    parseLine_of_strip_nil rfl, rfl⟩

end Sys2Proof.Machine
end
